-- ==== Sys2Proof/Word.lean ====
section
/-! DEFINITION. The two value widths of the engine: bytes, and the 16-bit command and response words. -/

namespace Sys2Proof

/-- A byte: 8 bits (R10). A character is a byte that holds an ASCII code (R10, R132). -/
abbrev Byte := BitVec 8

/-- A 16-bit value: a command word (`CMD_W`, R71), the response register (`RESP_W`, R33), the checksum (`CRC_W`, R23). -/
abbrev Word := BitVec 16

end Sys2Proof
end

