-- ==== Sys2Proof/Config.lean ====
section
/-! DEFINITION. The engine's fixed sizes and constants (Table P1). R7 and R8 forbid making any of them an argument of the
model, and the spec leaves no value open, so there is no free value here. -/

namespace Sys2Proof

/-- `CRC_POLY` (Table P1, R110). -/
def crcPoly : Word := 0x1021#16

/-- `CRC_INIT` (Table P1, R112). -/
def crcInit : Word := 0x0000#16

/-- `STYLE_BYTE` (Table P1, R8): byte 0 of every CanonicalAddress. -/
def styleByte : Byte := 0x51#8

/-- `TAG_STD` (Table P1, R172): the one accepted tag. -/
def tagStd : Byte := 0x43#8

/-- What a cell of `EA[1..35]` or of `TXT` holds at reset, hence what a cell that is not listed reads as (R46, R47, R132). -/
def blankByte : Byte := 0x00#8

/-- `RAW_MIN` (Table P1): the least length of an accepted record, and where `POS` saturates (R27). -/
@[simp] def rawMin : Nat := 34

/-- `HASH_LEN` (Table P1). -/
@[simp] def hashLen : Nat := 32

/-- `CANON_LEN` (Table P1). -/
@[simp] def canonLen : Nat := 34

/-- `EA_LEN` (Table P1): the size of the space `EA` (R50). -/
@[simp] def eaLen : Nat := 36

/-- `TXT_CAP` (Table P1): the size of the space `TXT` (R50). -/
@[simp] def txtCap : Nat := 48

/-- How many status words there are (R40). -/
@[simp] def csrCount : Nat := 4

end Sys2Proof
end

