-- ==== Sys2Proof/Syntax.lean ====
section
/-! DEFINITION. The commands of the engine, one constructor per row of the opcode table (Table E3), and the three kinds of
illegal word (R76). -/

namespace Sys2Proof

/-- The twelve commands (R74). An operand is the word's `imm8`, 8 bits, whatever the format makes of it (R72, R73). -/
inductive Instr where
  /-- `INIT`, format N (R100). -/
  | init
  /-- `CRC.CLR`, format N (R114). -/
  | crcClr
  /-- `CRC.UPD b`, format B (R115). -/
  | crcUpd (b : Byte)
  /-- `CRC.EMIT`, format N (R116). -/
  | crcEmit
  /-- `B64.CLR`, format N (R135). -/
  | b64Clr
  /-- `B64.PUSH b`, format B (R136). -/
  | b64Push (b : Byte)
  /-- `B64.END`, format N (R137). -/
  | b64End
  /-- `ADR.BYTE b`, format B (R151). -/
  | adrByte (b : Byte)
  /-- `ADR.END`, format N (R152). -/
  | adrEnd
  /-- `RDR n`, format R: `n` is a status-word number, legal 0 to 3 (R101). -/
  | rdr (n : Byte)
  /-- `RDE a`, format I: `a` is an address of `EA`, legal 0 to 35 (R102). -/
  | rde (a : Byte)
  /-- `RDT a`, format I: `a` is an address of `TXT`, legal 0 to 47 (R103). -/
  | rdt (a : Byte)
deriving DecidableEq, Repr

/-- Why a word is illegal: the three kinds of R76. -/
inductive Illegal where
  /-- The opcode is not one of Table E3. -/
  | undefinedOpcode (op : Byte)
  /-- A format N command whose `imm8` is not zero. -/
  | operandNotZero (op imm : Byte)
  /-- A format R or I command whose `imm8` is past its limit. -/
  | operandPastLimit (op imm : Byte)
deriving DecidableEq, Repr

end Sys2Proof
end

