-- ==== Sys2Proof/WellFormed.lean ====
section
/-! DEFINITION. Which terms of `Instr` stand for a command the encoding admits (the operand limits of Table E2). -/

namespace Sys2Proof

/-- The operand is a legal `imm8` of the command's format (Table E2, R72). -/
def Instr.wellFormed : Instr → Bool
  | .rdr n => decide (n.toNat < csrCount)
  | .rde a => decide (a.toNat < eaLen)
  | .rdt a => decide (a.toNat < txtCap)
  | .init | .crcClr | .crcUpd _ | .crcEmit | .b64Clr | .b64Push _ | .b64End | .adrByte _ | .adrEnd => true

end Sys2Proof
end

