-- ==== Sys2Proof/Decode.lean ====
section
/-! DEFINITION. The command word: its two fields, the decoder, the legality predicate of R75, and the encoder. -/

namespace Sys2Proof

/-! ## The two fields (R71) -/

/-- `op = cmd[15:8]` (R71). -/
def opField (w : Word) : Byte := w.extractLsb 15 8

/-- `imm8 = cmd[7:0]` (R71, R73): never sign-extended, scaled or shifted. -/
def immField (w : Word) : Byte := w.extractLsb 7 0

/-- `cmd = {op, imm8}` (R71). -/
def commandOf (op imm : Byte) : Word := op ++ imm

/-! ## Decoding (R74 to R77) -/

/-- Format N (Table E2): the operand is unused and must be zero. -/
def decodeNoOperand (w : Word) (i : Instr) : Except Illegal Instr :=
  if immField w = 0#8 then .ok i else .error (.operandNotZero (opField w) (immField w))

/-- Formats R and I (Table E2): the operand is a number compared, unsigned, with the format's limit (R73). -/
def decodeNumber (w : Word) (limit : Nat) (i : Byte → Instr) : Except Illegal Instr :=
  if (immField w).toNat < limit then .ok (i (immField w))
  else .error (.operandPastLimit (opField w) (immField w))

/-- The decoder, one line per row of Table E3. It is total on all 65536 words, has no mode and reads nothing but the word
(R77); every other opcode is undefined (R74, R76). -/
def decode (w : Word) : Except Illegal Instr :=
  match (opField w).toNat with
  | 0x01 => decodeNoOperand w .init
  | 0x10 => decodeNoOperand w .crcClr
  | 0x11 => .ok (.crcUpd (immField w))
  | 0x12 => decodeNoOperand w .crcEmit
  | 0x20 => decodeNoOperand w .b64Clr
  | 0x21 => .ok (.b64Push (immField w))
  | 0x22 => decodeNoOperand w .b64End
  | 0x31 => .ok (.adrByte (immField w))
  | 0x32 => decodeNoOperand w .adrEnd
  | 0x80 => decodeNumber w csrCount .rdr
  | 0x81 => decodeNumber w eaLen .rde
  | 0x82 => decodeNumber w txtCap .rdt
  | _ => .error (.undefinedOpcode (opField w))

/-- The predicate `legal(cmd)`, as R75 writes it. It is a second reading of Table E3, independent of `decode`. -/
def legal (w : Word) : Bool :=
  let op := opField w
  let imm8 := immField w
  if op ∈ [0x01#8, 0x10#8, 0x12#8, 0x20#8, 0x22#8, 0x32#8] then imm8 == 0x00#8
  else if op ∈ [0x11#8, 0x21#8, 0x31#8] then true
  else if op == 0x80#8 then decide (imm8.toNat ≤ 3)
  else if op == 0x81#8 then decide (imm8.toNat ≤ 35)
  else if op == 0x82#8 then decide (imm8.toNat ≤ 47)
  else false

/-! ## Encoding (Table E3, R82) -/

/-- The column `op` of Table E3. -/
def Instr.opcode : Instr → Byte
  | .init => 0x01#8
  | .crcClr => 0x10#8
  | .crcUpd _ => 0x11#8
  | .crcEmit => 0x12#8
  | .b64Clr => 0x20#8
  | .b64Push _ => 0x21#8
  | .b64End => 0x22#8
  | .adrByte _ => 0x31#8
  | .adrEnd => 0x32#8
  | .rdr _ => 0x80#8
  | .rde _ => 0x81#8
  | .rdt _ => 0x82#8

/-- The command's `imm8`: its operand, or zero for format N (R72, R82). -/
def Instr.operand : Instr → Byte
  | .crcUpd b | .b64Push b | .adrByte b => b
  | .rdr n => n
  | .rde a | .rdt a => a
  | .init | .crcClr | .crcEmit | .b64Clr | .b64End | .adrEnd => 0x00#8

/-- The encoding of a command, `{op, imm8}` (R71, R82). Every command is one word. -/
def encode (i : Instr) : Word := commandOf i.opcode i.operand

/-! ## The host's view of a table row -/

/-- The command word with the bits `w` of a table row of `nbits` bits: every bit from `nbits` up is 0. A command is a 16-bit
value, not a sequence of bytes, so no byte order enters (R56). -/
def commandWord (nbits w : Nat) : Word := BitVec.ofNat 16 (w % 2 ^ nbits)

/-- What the decoder reads from a table row's bits. -/
def decodeTableWord (nbits w : Nat) : Option Instr := (decode (commandWord nbits w)).toOption

end Sys2Proof
end

