-- ==== Sys2Proof/Machine/Checksum.lean ====
section
/-! DEFINITION. The checksum functions of the CRC unit (R110 to R112): bit-serial, most significant bit first. -/

namespace Sys2Proof.Machine

/-- `crc_bit(c)` (R110): one shift step. Bit 15 is tested before the shift; a `Word` drops the bit shifted out, which is the
mask of R110. -/
def crcBit (c : Word) : Word :=
  if c.getLsbD 15 then (c <<< 1) ^^^ crcPoly else c <<< 1

/-- `n` shift steps, one after another. -/
def crcBits : Nat → Word → Word
  | 0, r => r
  | n + 1, r => crcBits n (crcBit r)

/-- `crc_byte(c, b)` (R111): the byte meets bits 15:8 of the register, then eight shift steps. -/
def crcByte (c : Word) (b : Byte) : Word := crcBits 8 (c ^^^ (b.setWidth 16 <<< 8))

/-- `crc_seq(s)` (R112): the checksum of a byte sequence of any length, from `CRC_INIT`, with no final XOR. -/
def crcSeq (s : List Byte) : Word := s.foldl crcByte crcInit

/-- `T[i] = crc_byte(0x0000, i)` (R113 c), the table the document allows in place of the shift steps. -/
def crcTable (i : Byte) : Word := crcByte 0x0000#16 i

/-- `k[15:8]`, which is stored and emitted first (R55). -/
def highByte (k : Word) : Byte := k.extractLsb 15 8

/-- `k[7:0]`, which is stored and emitted second (R55). -/
def lowByte (k : Word) : Byte := k.extractLsb 7 0

end Sys2Proof.Machine
end

