-- ==== Sys2Proof/Machine/State.lean ====
section
/-! DEFINITION. The state of the engine (Table S1), the host's pending input, the reasons a step can stop, and reset. -/

namespace Sys2Proof.Machine

/-- The two address spaces (R50). -/
inductive Space where
  /-- `EA`, 36 bytes: the EncodedAddress (R51). -/
  | ea
  /-- `TXT`, 48 bytes: the text (R52). -/
  | txt
deriving DecidableEq, Repr

/-- The contents of a space: the cells that do not hold `blankByte`, as (address, byte) pairs in strictly rising address
order (`Memory.wf`). -/
abbrev Memory := List Host.Cell

/-- The faults the engine latches (Table X1, R170). Taking one is a next state, never a stop (R175). -/
inductive FaultCode where
  /-- Code 1, raised by `ADR.END` (R171). -/
  | malformedInput
  /-- Code 2, raised by `ADR.END` (R172). -/
  | unsupportedTag
  /-- Code 3, raised by any illegal word (R173). -/
  | illegalCommand
  /-- Code 4, raised by `B64.PUSH`, `B64.END` and `CRC.EMIT` (R174). -/
  | txtOverflow
deriving DecidableEq, Repr

/-- What the world outside does to the engine: the host gives a command word (R70) or the platform applies reset (R200). -/
inductive HostEvent where
  /-- The host issues this command word (R70). -/
  | command (w : Word)
  /-- The platform applies reset (R200, R201). -/
  | reset
deriving DecidableEq, Repr

/-- Everything the engine holds (Table S1; R21: nothing else is state), and the input it has still to be given. -/
structure State where
  /-- `CRC`, the checksum register (R23). -/
  crc : Word
  /-- `ACC`, the bits not yet emitted, right-justified (R24). -/
  acc : BitVec 4
  /-- `PH`, the phase in the 3-byte group; 3 never occurs (R24, R25). -/
  ph : BitVec 2
  /-- `TLEN`, how many characters `TXT` holds, 0 to 48 (R26). -/
  tlen : BitVec 6
  /-- `TXT[0..47]` (R32). -/
  txt : Memory
  /-- `EA[1..35]` (R31). `EA[0]` is hardwired and is not stored: `State.memRead` gives it. -/
  ea : Memory
  /-- `POS`, how many bytes of the record have been received, saturating at 34 (R27). -/
  pos : BitVec 6
  /-- `TAG`, byte 0 of the record (R28). -/
  tag : Byte
  /-- `DONE` (R29). -/
  done : Bool
  /-- `ERR`, the latched fault code, 0 for none; 5, 6 and 7 never occur (R30). -/
  err : BitVec 3
  /-- `ERRINFO`, the context byte latched with `ERR` (R30). -/
  errInfo : Byte
  /-- `RESP`, the response register (R33). -/
  resp : Word
  /-- THE MODEL'S OWN FIELD, not the spec's: the events still to come from outside, the next one first. R21 makes the command
  stream an input of the step and no state; R59 has the model take the command words as an input sequence (log entry 1). -/
  input : List HostEvent
deriving DecidableEq, Repr

/-- Why a step can stop with a fault. The spec's own faults are not here: they are latched, and the machine goes on (R175). -/
inductive Fault where
  /-- Raised by `State.memWrite` for an address its space does not have (R50, R54). SAFE: R54 says no command's write leaves
  its space, and it can come up only in states with `PH = 3`, which R25 says never occur (log entry 4). -/
  | noSuchAddress (sp : Space) (a : Nat)
deriving DecidableEq, Repr

/-- Why a step can be refused. -/
inductive Refusal where
  /-- Raised by an arm of `exec` for a command that has no meaning yet. SAFE. No arm raises it: all twelve are modelled. -/
  | notModelled (mnemonic : String)
deriving DecidableEq, Repr

/-- The machine right after reset: Table S3 (R46, R200), with no event from outside yet. Nothing is listed in either space,
so `EA[1..35]` and `TXT` read zero and `EA[0]` reads `0x51`. -/
def State.reset : State where
  crc := 0x0000#16
  acc := 0#4
  ph := 0#2
  tlen := 0#6
  txt := []
  ea := []
  pos := 0#6
  tag := 0x00#8
  done := false
  err := 0#3
  errInfo := 0x00#8
  resp := 0x0000#16
  input := []

end Sys2Proof.Machine
end

