-- ==== Sys2Proof/Machine/Text.lean ====
section
/-! DEFINITION. The text encoding of the base64url unit as pure functions (R130, R131, R134, R138), and its inverse, which
`95_test_vectors.md` section 5 gives for a test harness. -/

namespace Sys2Proof.Machine

/-- `alpha(i)` (R130, Table B1): the character code of a 6-bit value. -/
def alpha (i : BitVec 6) : Byte :=
  if i ≤ 25#6 then 0x41#8 + i.setWidth 8
  else if i ≤ 51#6 then 0x61#8 + (i.setWidth 8 - 26#8)
  else if i ≤ 61#6 then 0x30#8 + (i.setWidth 8 - 52#8)
  else if i = 62#6 then 0x2D#8
  else 0x5F#8

/-- The code is one of the 64 of the alphabet (R130): a capital letter, a small letter, a digit, '-' or '_'. -/
def inAlphabet (c : Byte) : Bool :=
  decide (0x41#8 ≤ c ∧ c ≤ 0x5A#8) || decide (0x61#8 ≤ c ∧ c ≤ 0x7A#8) || decide (0x30#8 ≤ c ∧ c ≤ 0x39#8)
    || c == 0x2D#8 || c == 0x5F#8

/-! ## The four 6-bit values of a 3-byte group, and the two of a partial one (R131) -/

/-- `b0[7:2]`. -/
def sextet0 (b0 : Byte) : BitVec 6 := b0.extractLsb 7 2

/-- `{b0[1:0], b1[7:4]}`. -/
def sextet1 (b0 b1 : Byte) : BitVec 6 := b0.extractLsb 1 0 ++ b1.extractLsb 7 4

/-- `{b1[3:0], b2[7:6]}`. -/
def sextet2 (b1 b2 : Byte) : BitVec 6 := b1.extractLsb 3 0 ++ b2.extractLsb 7 6

/-- `b2[5:0]`. -/
def sextet3 (b2 : Byte) : BitVec 6 := b2.extractLsb 5 0

/-- `b64url(s)` (R138): the unpadded URL-safe base64 text of a byte sequence. -/
def b64url : List Byte → List Byte
  | [] => []
  | [b0] => [alpha (sextet0 b0), alpha (b0.extractLsb 1 0 ++ 0b0000#4)]
  | [b0, b1] => [alpha (sextet0 b0), alpha (sextet1 b0 b1), alpha (b1.extractLsb 3 0 ++ 0b00#2)]
  | b0 :: b1 :: b2 :: rest =>
    alpha (sextet0 b0) :: alpha (sextet1 b0 b1) :: alpha (sextet2 b1 b2) :: alpha (sextet3 b2) :: b64url rest

/-- `nchars(ph, k)` (R134): how many characters `k` calls of `b64_push` emit from phase `ph`. -/
def nchars : Nat → Nat → Nat
  | _, 0 => 0
  | ph, k + 1 => (if ph = 2 then 2 else 1) + nchars ((ph + 1) % 3) k

/-! ## The inverse, for the round-trip harness (`95_test_vectors.md` section 5) -/

/-- `alpha_inverse`: the 6-bit value of a code of the alphabet; `none` for any other code. -/
def alphaInverse (c : Byte) : Option (BitVec 6) :=
  if 0x41#8 ≤ c ∧ c ≤ 0x5A#8 then some ((c - 0x41#8).setWidth 6)
  else if 0x61#8 ≤ c ∧ c ≤ 0x7A#8 then some ((c - 0x61#8 + 26#8).setWidth 6)
  else if 0x30#8 ≤ c ∧ c ≤ 0x39#8 then some ((c - 0x30#8 + 52#8).setWidth 6)
  else if c = 0x2D#8 then some 62#6
  else if c = 0x5F#8 then some 63#6
  else none

/-- The six bits of a value, the most significant first. -/
def bitsOfSextet (v : BitVec 6) : List Bool :=
  [v.getLsbD 5, v.getLsbD 4, v.getLsbD 3, v.getLsbD 2, v.getLsbD 1, v.getLsbD 0]

/-- The byte made of eight bits, the most significant first. -/
def byteOfBits (b7 b6 b5 b4 b3 b2 b1 b0 : Bool) : Byte :=
  BitVec.ofBool b7 ++ BitVec.ofBool b6 ++ BitVec.ofBool b5 ++ BitVec.ofBool b4 ++ BitVec.ofBool b3 ++ BitVec.ofBool b2
    ++ BitVec.ofBool b1 ++ BitVec.ofBool b0

/-- The whole bytes of a bit string, in order; fewer than eight bits left over are dropped. -/
def bytesOfBits : List Bool → List Byte
  | b7 :: b6 :: b5 :: b4 :: b3 :: b2 :: b1 :: b0 :: rest => byteOfBits b7 b6 b5 b4 b3 b2 b1 b0 :: bytesOfBits rest
  | _ => []

/-- The bit string of a text: six bits a character; `none` when a code is not of the alphabet. -/
def bitsOfText : List Byte → Option (List Bool)
  | [] => some []
  | c :: rest =>
    match alphaInverse c, bitsOfText rest with
    | some v, some bits => some (bitsOfSextet v ++ bits)
    | _, _ => none

/-- `unb64url(t)`: the bytes a text stands for; `none` when a code is not of the alphabet. -/
def unb64url (t : List Byte) : Option (List Byte) := (bitsOfText t).map bytesOfBits

end Sys2Proof.Machine
end

