-- ==== Sys2Proof/Machine/Ops.lean ====
section
/-! DEFINITION. The operations the commands share: the buffers, taking a fault and leaving the fault state, the fault-state
gate, appending text, and what the outside world gives next. -/

namespace Sys2Proof.Machine

/-- How a command runs: its next state, or the reason the model stops. -/
abbrev Step := Host.Outcome State Fault Refusal

/-- The outcome of a command whose work went through, or met an address that does not exist. -/
def settle : Except Fault State → Step
  | .ok t => .next t
  | .error e => .fault e

/-! ## The buffers (R14, R50 to R54) -/

/-- The byte of a cell; a cell that is not listed holds `blankByte` (R46, R47). -/
def Memory.read : Memory → Nat → Byte
  | [], _ => blankByte
  | c :: m, a => if c.1 = a then c.2 else Memory.read m a

/-- Puts a cell at its place in the rising order. -/
def Memory.insert (a : Nat) (v : Byte) : Memory → Memory
  | [] => [(a, v)]
  | c :: m => if a < c.1 then (a, v) :: c :: m else c :: Memory.insert a v m

/-- Writes one cell. Writing `blankByte` leaves the cell unlisted, so that equal contents are equal lists. -/
def Memory.write (m : Memory) (a : Nat) (v : Byte) : Memory :=
  let others := m.filter (fun c => c.1 != a)
  if v = blankByte then others else Memory.insert a v others

/-- Every listed address is above the one before it, `lo` being the least the first may be. -/
def Memory.rising (lo : Nat) : Memory → Bool
  | [] => true
  | c :: m => decide (lo ≤ c.1) && Memory.rising (c.1 + 1) m

/-- The addresses whose cells a space stores: `EA[0]` is hardwired and is not stored (R31). -/
def Space.stores : Space → Nat → Bool
  | .ea, a => decide (1 ≤ a ∧ a < eaLen)
  | .txt, a => decide (a < txtCap)

/-- The canonical form of a space's contents: strictly rising addresses, each one the space stores, and no cell that holds
what an unlisted one reads as. -/
def Memory.wf (sp : Space) (m : Memory) : Bool :=
  Memory.rising 0 m && m.all (fun c => sp.stores c.1 && c.2 != blankByte)

/-- How many addresses a space has (R50). -/
def Space.size : Space → Nat
  | .ea => eaLen
  | .txt => txtCap

/-- `MemRead(S, a, 1)` (R14). `EA[0]` is hardwired to the style byte and reads so in every state (R8, R31). A read changes
nothing (R58). Every caller gives an address the space has (R54). -/
def State.memRead (s : State) (sp : Space) (a : Nat) : Byte :=
  match sp with
  | .ea => if a = 0 then styleByte else Memory.read s.ea a
  | .txt => Memory.read s.txt a

/-- The cell `a` of a space takes the byte `v`; the hardwired cell `EA[0]` keeps its own (R31). -/
def State.store (s : State) (sp : Space) (a : Nat) (v : Byte) : State :=
  match sp with
  | .ea => if a = 0 then s else { s with ea := Memory.write s.ea a v }
  | .txt => { s with txt := Memory.write s.txt a v }

/-- `MemWrite(S, a, 1, v)` (R14). An address the space does not have is a fault of the model; R54 says that no command
writes at one. -/
def State.memWrite (s : State) (sp : Space) (a : Nat) (v : Byte) : Except Fault State :=
  if a < sp.size then .ok (s.store sp a v) else .error (.noSuchAddress sp a)

/-- The byte sequence `S[lo], ..., S[lo + n - 1]` (R14). -/
def State.bytes (s : State) (sp : Space) (lo n : Nat) : List Byte := (List.range' lo n).map (s.memRead sp)

/-! ## Taking a fault, the fault-state gate, and the way out (R175 to R178) -/

/-- The code a fault leaves in `ERR` (Table X1). -/
def FaultCode.code : FaultCode → BitVec 3
  | .malformedInput => 1#3
  | .unsupportedTag => 2#3
  | .illegalCommand => 3#3
  | .txtOverflow => 4#3

/-- Fault entry, `raise Fault(code, info)` (R175): `ERR`, `ERRINFO` and `DONE` change, and nothing else. There is no handler,
no vector and no saved state. -/
def State.raiseFault (s : State) (c : FaultCode) (info : Byte) : State :=
  { s with err := c.code, errInfo := info, done := false }

/-- The fault state: `ERR` is not 0 (R80, R176). -/
def State.inFaultState (s : State) : Bool := s.err != 0#3

/-- The fault-state gate (R80): a computing command, or an illegal word, runs only outside the fault state; inside it is
discarded and changes nothing. -/
def State.gate (s : State) (r : Step) : Step := if s.inFaultState then .next s else r

/-- What an illegal word with the opcode byte `op` does (R76, R81, R173): the fault `ILLEGAL_COMMAND`, behind the gate. -/
def State.illegalCommand (s : State) (op : Byte) : Step := s.gate (.next (s.raiseFault .illegalCommand op))

/-- The whole engine to the reset state, the way out of the fault state: `INIT` and the platform's reset alike (R100, R178,
R200, R201). The events still to come are no state of the engine and stay. -/
def State.toReset (s : State) : State := { State.reset with input := s.input }

/-! ## The response register (R33) -/

/-- `RESP <- w` (R101 to R103). -/
def State.respond (s : State) (w : Word) : State := { s with resp := w }

/-! ## Appending text (R133) -/

/-- `ACC <- 0; PH <- 0; TLEN <- 0`, and every cell of `TXT` zero (R100, R135, R152). -/
def State.clearText (s : State) : State := { s with acc := 0#4, ph := 0#2, tlen := 0#6, txt := [] }

/-- `emit(i)` (R133): one character at `TXT[TLEN]`. -/
def emit (i : BitVec 6) (s : State) : Except Fault State := do
  let t ← s.memWrite .txt s.tlen.toNat (alpha i)
  return { t with tlen := t.tlen + 1#6 }

/-- `b64_push(b)` (R133): one byte into the current 3-byte group. -/
def b64Push (b : Byte) (s : State) : Except Fault State :=
  if s.ph = 0#2 then do
    let t ← emit (b.extractLsb 7 2) s
    return { t with acc := 0b00#2 ++ b.extractLsb 1 0, ph := 1#2 }
  else if s.ph = 1#2 then do
    let t ← emit (s.acc.extractLsb 1 0 ++ b.extractLsb 7 4) s
    return { t with acc := b.extractLsb 3 0, ph := 2#2 }
  else do
    let t ← emit (s.acc.extractLsb 3 0 ++ b.extractLsb 7 6) s
    let u ← emit (b.extractLsb 5 0) t
    return { u with acc := 0#4, ph := 0#2 }

/-- `b64_push` of each byte of a sequence in order. -/
def b64PushAll : List Byte → State → Except Fault State
  | [], s => .ok s
  | b :: bs, s => do
    let t ← b64Push b s
    b64PushAll bs t

/-- The overflow test of R134: `n` more characters would not fit the 48 cells. `+` does not wrap (R12). -/
def State.textOverflows (s : State) (n : Nat) : Bool := decide (txtCap < s.tlen.toNat + n)

/-- A command that appends `n` characters (R134, R174): behind the gate, the overflow test is made before any change, and
the fault carries `TLEN`; otherwise `DONE` falls and the characters are written. -/
def State.appending (s : State) (n : Nat) (work : State → Except Fault State) : Step :=
  s.gate
    (if s.textOverflows n then .next (s.raiseFault .txtOverflow (s.tlen.setWidth 8))
     else settle (work { s with done := false }))

/-! ## The next event from outside -/

/-- The next event and the state without it; `none` while the outside world gives nothing. -/
def State.nextEvent (s : State) : Option (HostEvent × State) :=
  match s.input with
  | [] => none
  | e :: rest => some (e, { s with input := rest })

end Sys2Proof.Machine
end

