-- ==== Sys2Proof/Machine/Operands.lean ====
section
/-! DEFINITION. What the operand `imm8` is in each format (Table E2, R73). In format B it is the data byte itself; in formats R
and I it is compared, unsigned, with its limit. -/

namespace Sys2Proof.Machine

/-- The four status words (R40). -/
inductive StatusWord where
  /-- `CSR[0]` (R41). -/
  | status
  /-- `CSR[1]` (R42). -/
  | crcr
  /-- `CSR[2]` (R43). -/
  | b64st
  /-- `CSR[3]` (R44). -/
  | adrst
deriving DecidableEq, Repr

/-- Format B: the data byte, never extended here (R73). -/
def dataByte (imm : Byte) : Byte := imm

/-- Format R: the status word a number selects; 4 to 255 select none (R40). -/
def statusNumber (imm : Byte) : Option StatusWord :=
  match imm.toNat with
  | 0 => some .status
  | 1 => some .crcr
  | 2 => some .b64st
  | 3 => some .adrst
  | _ => none

/-- Format I: the address an operand gives in a space; `none` past the space's end. Addresses never wrap (R54). -/
def bufferAddress (sp : Space) (imm : Byte) : Option Nat :=
  if imm.toNat < sp.size then some imm.toNat else none

end Sys2Proof.Machine
end

