-- ==== Sys2Proof/Machine/Flags.lean ====
section
/-! DEFINITION. The status flags, the two outputs, the four status words, and the readings of the state the spec gives names
to. The engine has no other flag (R34). -/

namespace Sys2Proof.Machine

/-- The derived flag `FAULT`: `ERR` is not 0 (R30, R41). -/
def State.faultFlag (s : State) : Bool := s.err != 0#3

/-- The output `done_o` (R186). -/
def State.doneOut (s : State) : Bool := s.done

/-- The output `fault_o` (R186). -/
def State.faultOut (s : State) : Bool := s.faultFlag

/-- `CSR[n]`, computed when it is read (R40 to R44). -/
def State.csr (s : State) : StatusWord → Word
  | .status => s.errInfo ++ 0b000#3 ++ s.err ++ BitVec.ofBool s.faultFlag ++ BitVec.ofBool s.done
  | .crcr => s.crc
  | .b64st => 0b00#2 ++ s.ph ++ s.acc ++ 0b00#2 ++ s.tlen
  | .adrst => s.tag ++ 0b00#2 ++ s.pos

/-- The signed view of the workchain byte (R153). -/
def State.workchain (s : State) : Int := (s.memRead .ea 1).toInt

/-- The hash of the record, `EA[2..33]` (R156). -/
def State.hash (s : State) : List Byte := s.bytes .ea 2 hashLen

/-- The fault whose code is in `ERR` (R30, Table X1); `none` while no fault is latched. -/
def State.latchedFault (s : State) : Option FaultCode :=
  match s.err.toNat with
  | 1 => some .malformedInput
  | 2 => some .unsupportedTag
  | 3 => some .illegalCommand
  | 4 => some .txtOverflow
  | _ => none

end Sys2Proof.Machine
end

