-- ==== Sys2Proof/Machine/AddressUnit.lean ====
section
/-! DEFINITION. The commands of the address unit: `ADR.BYTE`, `ADR.END` (`43_address.md`). -/

namespace Sys2Proof.Machine

/-- `POS <- min(POS + 1, 34)` (R151, R117): saturates and never wraps. -/
def nextPos (p : BitVec 6) : BitVec 6 := BitVec.ofNat 6 (min (p.toNat + 1) rawMin)

/-- The byte of the record at `POS` goes to its place (R151): the tag, a cell of `EA`, or, from byte 34 on, nowhere. -/
def receiveByte (b : Byte) (s : State) : Except Fault State :=
  if s.pos = 0#6 then .ok { s with tag := b }
  else if s.pos.toNat ≤ 33 then s.memWrite .ea s.pos.toNat b
  else .ok s

/-- `ADR.BYTE b` (R151). No check is made here. -/
def execAdrByte (b : Byte) (s : State) : Step :=
  s.gate (settle (do
    let t ← receiveByte (dataByte b) { s with done := false }
    return { t with pos := nextPos s.pos }))

/-- The accepted record (R152): its checksum over `EA[0..33]`, stored high byte first, then the text of `EA[0..35]`. -/
def buildAddress (s : State) : Except Fault State := do
  let k := crcSeq (s.bytes .ea 0 canonLen)
  let s ← ({ s with crc := k } : State).memWrite .ea 34 (highByte k)
  let s ← s.memWrite .ea 35 (lowByte k)
  let s ← b64PushAll (s.bytes .ea 0 eaLen) s.clearText
  return { s with pos := 0#6, done := true }

/-- `ADR.END` (R152): the length test, then the tag test (R177 c), then the EncodedAddress and the AddressString. -/
def execAdrEnd (s : State) : Step :=
  s.gate
    (if s.pos.toNat < rawMin then .next (s.raiseFault .malformedInput (s.pos.setWidth 8))
     else if s.tag ≠ tagStd then .next (s.raiseFault .unsupportedTag s.tag)
     else settle (buildAddress s))

end Sys2Proof.Machine
end

