-- ==== Sys2Proof/Machine/Base64Unit.lean ====
section
/-! DEFINITION. The commands of the base64url unit: `B64.CLR`, `B64.PUSH`, `B64.END` (`42_base64url.md`). -/

namespace Sys2Proof.Machine

/-- `B64.CLR` (R135): bits waiting in `ACC` are thrown away. -/
def execB64Clr (s : State) : Step := s.gate (.next { s.clearText with done := false })

/-- `B64.PUSH b` (R136). -/
def execB64Push (b : Byte) (s : State) : Step := s.appending (nchars s.ph.toNat 1) (b64Push (dataByte b))

/-- The last character of a partial group, if there is one (R137). -/
def b64Flush (s : State) : Except Fault State := do
  let t ← if s.ph = 1#2 then emit (s.acc.extractLsb 1 0 ++ 0b0000#4) s
    else if s.ph = 2#2 then emit (s.acc.extractLsb 3 0 ++ 0b00#2) s
    else .ok s
  return { t with acc := 0#4, ph := 0#2 }

/-- `B64.END` (R137): no padding is written, and the text stays. -/
def execB64End (s : State) : Step := s.appending (if s.ph = 0#2 then 0 else 1) b64Flush

end Sys2Proof.Machine
end

