-- ==== Sys2Proof/Machine/CrcUnit.lean ====
section
/-! DEFINITION. The commands of the CRC unit: `CRC.CLR`, `CRC.UPD`, `CRC.EMIT` (`41_crc.md`). -/

namespace Sys2Proof.Machine

/-- `CRC.CLR` (R114). `DONE` is not changed. -/
def execCrcClr (s : State) : Step := s.gate (.next { s with crc := crcInit })

/-- `CRC.UPD b` (R115): the register goes on from its old value. `DONE` is not changed. -/
def execCrcUpd (b : Byte) (s : State) : Step := s.gate (.next { s with crc := crcByte s.crc (dataByte b) })

/-- `CRC.EMIT` (R116): the checksum's two bytes into the text, high byte first, with one overflow test for both. -/
def execCrcEmit (s : State) : Step :=
  s.appending (nchars s.ph.toNat 2) (fun t => b64PushAll [highByte s.crc, lowByte s.crc] t)

end Sys2Proof.Machine
end

