-- ==== Sys2Proof/Machine/System.lean ====
section
/-! DEFINITION. The system and read commands: `INIT`, `RDR`, `RDE`, `RDT` (`40_system.md`). They pass the fault-state gate
(R80). -/

namespace Sys2Proof.Machine

/-- `INIT` (R100): the reset state, whatever the state before. -/
def execInit (s : State) : Step := .next s.toReset

/-- `RDR n` (R101): only `RESP` changes. A number past 3 makes the word illegal. -/
def execRdr (n : Byte) (s : State) : Step :=
  match statusNumber n with
  | some w => .next (s.respond (s.csr w))
  | none => s.illegalCommand 0x80#8

/-- `RDE a` (R102): `EA[a]`, zero-extended; only `RESP` changes. An address past 35 makes the word illegal. -/
def execRde (a : Byte) (s : State) : Step :=
  match bufferAddress .ea a with
  | some k => .next (s.respond ((s.memRead .ea k).setWidth 16))
  | none => s.illegalCommand 0x81#8

/-- `RDT a` (R103): `TXT[a]`, zero-extended; only `RESP` changes. An address past 47 makes the word illegal. -/
def execRdt (a : Byte) (s : State) : Step :=
  match bufferAddress .txt a with
  | some k => .next (s.respond ((s.memRead .txt k).setWidth 16))
  | none => s.illegalCommand 0x82#8

end Sys2Proof.Machine
end

