-- ==== Sys2Proof/Machine/Dispatch.lean ====
section
/-! DEFINITION. `execute(cmd)` (R81): each command's meaning, with the fault-state gate that R80 puts before it. -/

namespace Sys2Proof.Machine

def exec (i : Instr) (s : State) : Host.Outcome State Fault Refusal :=
  match i with
  | .init => Sys2Proof.Machine.execInit s
  | .crcClr => Sys2Proof.Machine.execCrcClr s
  | .crcUpd b => Sys2Proof.Machine.execCrcUpd b s
  | .crcEmit => Sys2Proof.Machine.execCrcEmit s
  | .b64Clr => Sys2Proof.Machine.execB64Clr s
  | .b64Push b => Sys2Proof.Machine.execB64Push b s
  | .b64End => Sys2Proof.Machine.execB64End s
  | .adrByte b => Sys2Proof.Machine.execAdrByte b s
  | .adrEnd => Sys2Proof.Machine.execAdrEnd s
  | .rdr n => Sys2Proof.Machine.execRdr n s
  | .rde a => Sys2Proof.Machine.execRde a s
  | .rdt a => Sys2Proof.Machine.execRdt a s

end Sys2Proof.Machine
end

