-- ==== Sys2Proof/Machine/Step.lean ====
section
/-! DEFINITION. One step: the next event from outside, taken whole (R70, R81). -/

namespace Sys2Proof.Machine

/-- One step. A command word is decoded and executed, an illegal one takes its own path (R81), the platform's reset resets
(R200), and with no event the engine is idle and keeps all its state (R9, R189). -/
def step (s : State) : Host.Outcome State Fault Refusal :=
  match s.nextEvent with
  | none => .next s
  | some (.reset, s) => .next s.toReset
  | some (.command w, s) =>
    match decode w with
    | .ok i => exec i s
    | .error _ => s.illegalCommand (opField w)

/-- `s` with the command word of a table row as the host's next event. -/
def State.withFetchWord (s : State) (nbits w : Nat) : State :=
  { s with input := .command (commandWord nbits w) :: s.input }

end Sys2Proof.Machine
end

