-- ==== Sys2Proof/Machine/Assembler.lean ====
section
/-! DEFINITION. The assembler notation (R82) and the pseudo-commands (R83). No command and no step uses this file. Texts are
lists of characters, which the kernel evaluates; what R82 leaves open about a line is in log entry 6. -/

namespace Sys2Proof.Machine

/-! ## Pseudo-commands (Table E4) -/

/-- The eleven pseudo-commands (R83). -/
inductive Pseudo where
  | rdStatus
  | rdCrc
  | rdB64st
  | rdAdrst
  | crcStr (bs : List Byte)
  | b64Str (bs : List Byte)
  | adrStr (bs : List Byte)
  | encByte (b : Byte)
  | crcSum (bs : List Byte)
  | b64Enc (bs : List Byte)
  | convert (bs : List Byte)
deriving DecidableEq, Repr

/-- The real commands a pseudo-command stands for (Table E4). -/
def Pseudo.expand : Pseudo → List Instr
  | .rdStatus => [.rdr 0]
  | .rdCrc => [.rdr 1]
  | .rdB64st => [.rdr 2]
  | .rdAdrst => [.rdr 3]
  | .crcStr bs => bs.map .crcUpd
  | .b64Str bs => bs.map .b64Push
  | .adrStr bs => bs.map .adrByte
  | .encByte b => [.crcUpd b, .b64Push b]
  | .crcSum bs => .crcClr :: bs.map .crcUpd ++ [.rdr 1]
  | .b64Enc bs => .b64Clr :: bs.map .b64Push ++ [.b64End]
  | .convert bs => .init :: bs.map .adrByte ++ [.adrEnd, .rdr 0]

/-! ## Reading one line (R82) -/

/-- The value of a digit; the hexadecimal letters in either case. -/
def digitOf (c : Char) : Option Nat :=
  if '0' ≤ c ∧ c ≤ '9' then some (c.toNat - 48)
  else if 'A' ≤ c ∧ c ≤ 'F' then some (c.toNat - 55)
  else if 'a' ≤ c ∧ c ≤ 'f' then some (c.toNat - 87)
  else none

/-- The number of a non-empty digit string in a base; `acc` is the value of the digits before it. -/
def numberFrom (base acc : Nat) : List Char → Option Nat
  | [] => none
  | [c] =>
    match digitOf c with
    | some d => if d < base then some (acc * base + d) else none
    | none => none
  | c :: rest =>
    match digitOf c with
    | some d => if d < base then numberFrom base (acc * base + d) rest else none
    | none => none

/-- A value that fits `imm8`. -/
def asByte (n : Nat) : Option Byte := if n < 256 then some (BitVec.ofNat 8 n) else none

/-- A number: decimal, or hexadecimal with `0x`. -/
def readNumber : List Char → Option Byte
  | '0' :: 'x' :: rest => (numberFrom 16 0 rest).bind asByte
  | cs => (numberFrom 10 0 cs).bind asByte

/-- A data byte: a number, or an ASCII character in single quotes. -/
def readDataByte : List Char → Option Byte
  | ['\'', c, '\''] => if c.toNat < 128 then asByte c.toNat else none
  | cs => readNumber cs

/-- A space or a tab. -/
def isBlank (c : Char) : Bool := c == ' ' || c == '\t'

/-- A text without the blanks at its two ends. -/
def trim (cs : List Char) : List Char := ((cs.dropWhile isBlank).reverse.dropWhile isBlank).reverse

/-- The line without its comment; `quoted` says that a string in double quotes is open. -/
def withoutComment (quoted : Bool) : List Char → List Char
  | [] => []
  | '"' :: rest => '"' :: withoutComment (!quoted) rest
  | '\'' :: c :: '\'' :: rest => '\'' :: c :: '\'' :: withoutComment quoted rest
  | c :: rest => if c == ';' && !quoted then [] else c :: withoutComment quoted rest

/-- The pieces between commas; `piece` holds the characters of the current one, the last first. -/
def atCommas (piece : List Char) : List Char → List (List Char)
  | [] => [piece.reverse]
  | '\'' :: c :: '\'' :: rest => atCommas ('\'' :: c :: '\'' :: piece) rest
  | c :: rest => if c == ',' then piece.reverse :: atCommas [] rest else atCommas (c :: piece) rest

/-- Every element read, or `none` when one cannot be. -/
def readAll (read : List Char → Option Byte) : List (List Char) → Option (List Byte)
  | [] => some []
  | p :: ps =>
    match read p, readAll read ps with
    | some b, some bs => some (b :: bs)
    | _, _ => none

/-- A byte list (R83): nothing, a string in double quotes, or data bytes between commas. -/
def readBytes (cs : List Char) : Option (List Byte) :=
  match cs with
  | [] => some []
  | '"' :: rest =>
    match rest.reverse with
    | '"' :: inner =>
      if inner.all (fun c => decide (c.toNat < 128) && c != '"') then
        some (inner.reverse.map (fun c => BitVec.ofNat 8 c.toNat))
      else none
    | _ => none
  | _ => readAll readDataByte ((atCommas [] cs).map trim)

/-- The words of a command that takes no operand. -/
def lineOf (op : Byte) (operand : List Char) : Option (List Word) :=
  if operand.isEmpty then some [commandOf op 0x00#8] else none

/-- The word of a command with one operand; the range of a format R or I operand is the decoder's matter, not the
notation's (R76 writes `RDR 4`). -/
def lineWith (op : Byte) (read : List Char → Option Byte) (operand : List Char) : Option (List Word) :=
  (read operand).map (fun b => [commandOf op b])

/-- The words of a pseudo-command that takes no operand. -/
def pseudoOf (p : Pseudo) (operand : List Char) : Option (List Word) :=
  if operand.isEmpty then some (p.expand.map encode) else none

/-- The words of a pseudo-command over a byte list. -/
def pseudoOver (p : List Byte → Pseudo) (operand : List Char) : Option (List Word) :=
  (readBytes operand).map (fun bs => (p bs).expand.map encode)

/-- The words of a mnemonic of Table E3 or Table E4 with its operand text. -/
def assembleCommand (mnemonic operand : List Char) : Option (List Word) :=
  match mnemonic with
  | ['I', 'N', 'I', 'T'] => lineOf 0x01#8 operand
  | ['C', 'R', 'C', '.', 'C', 'L', 'R'] => lineOf 0x10#8 operand
  | ['C', 'R', 'C', '.', 'U', 'P', 'D'] => lineWith 0x11#8 readDataByte operand
  | ['C', 'R', 'C', '.', 'E', 'M', 'I', 'T'] => lineOf 0x12#8 operand
  | ['B', '6', '4', '.', 'C', 'L', 'R'] => lineOf 0x20#8 operand
  | ['B', '6', '4', '.', 'P', 'U', 'S', 'H'] => lineWith 0x21#8 readDataByte operand
  | ['B', '6', '4', '.', 'E', 'N', 'D'] => lineOf 0x22#8 operand
  | ['A', 'D', 'R', '.', 'B', 'Y', 'T', 'E'] => lineWith 0x31#8 readDataByte operand
  | ['A', 'D', 'R', '.', 'E', 'N', 'D'] => lineOf 0x32#8 operand
  | ['R', 'D', 'R'] => lineWith 0x80#8 readNumber operand
  | ['R', 'D', 'E'] => lineWith 0x81#8 readNumber operand
  | ['R', 'D', 'T'] => lineWith 0x82#8 readNumber operand
  | ['R', 'D', '.', 'S', 'T', 'A', 'T', 'U', 'S'] => pseudoOf .rdStatus operand
  | ['R', 'D', '.', 'C', 'R', 'C'] => pseudoOf .rdCrc operand
  | ['R', 'D', '.', 'B', '6', '4', 'S', 'T'] => pseudoOf .rdB64st operand
  | ['R', 'D', '.', 'A', 'D', 'R', 'S', 'T'] => pseudoOf .rdAdrst operand
  | ['C', 'R', 'C', '.', 'S', 'T', 'R'] => pseudoOver .crcStr operand
  | ['B', '6', '4', '.', 'S', 'T', 'R'] => pseudoOver .b64Str operand
  | ['A', 'D', 'R', '.', 'S', 'T', 'R'] => pseudoOver .adrStr operand
  | ['E', 'N', 'C', '.', 'B', 'Y', 'T', 'E'] => (readDataByte operand).map (fun b => (Pseudo.encByte b).expand.map encode)
  | ['C', 'R', 'C', '.', 'S', 'U', 'M'] => pseudoOver .crcSum operand
  | ['B', '6', '4', '.', 'E', 'N', 'C'] => pseudoOver .b64Enc operand
  | ['C', 'O', 'N', 'V', 'E', 'R', 'T'] => pseudoOver .convert operand
  | _ => none

/-- The words of one line (R82, R83): none for a blank line or a comment; `none` when the line is not of the notation. -/
def assembleLine (line : List Char) : Option (List Word) :=
  let text := trim (withoutComment false line)
  if text.isEmpty then some []
  else assembleCommand (text.takeWhile (fun c => !isBlank c)) (trim (text.dropWhile (fun c => !isBlank c)))

/-- A program is a sequence of lines and assembles to the sequence of their words (R82). -/
def assemble : List (List Char) → Option (List Word)
  | [] => some []
  | line :: rest =>
    match assembleLine line, assemble rest with
    | some ws, some more => some (ws ++ more)
    | _, _ => none

end Sys2Proof.Machine
end

