-- ==== Sys2Proof/Machine/Record.lean ====
section
/-! DEFINITION. The document's three contracts over byte sequences (R154), and its errors as the fault registers hold them
(R181). No command calls them: R155 says what the commands have to do with them, and the statements say so of the model. -/

namespace Sys2Proof.Machine

/-- The document's two errors with the context each carries (R154, R171, R172). -/
inductive RecordError where
  /-- `Error(MALFORMED_INPUT, len(raw))`. -/
  | malformedInput (length : Nat)
  /-- `Error(UNSUPPORTED_TAG, raw[0])`. -/
  | unsupportedTag (tag : Byte)
deriving DecidableEq, Repr

/-- What the document's `decode` returns: the workchain byte and the hash (R154, R156). -/
structure DecodedRecord where
  wc : Byte
  hash : List Byte
deriving DecidableEq, Repr

/-- `decode(raw)` (R154): the length test comes before the tag test, and nothing past byte 33 is read. -/
def decodeRecord (raw : List Byte) : Except RecordError DecodedRecord :=
  if raw.length < rawMin then .error (.malformedInput raw.length)
  else
    match raw with
    | tag :: wc :: rest => if tag = tagStd then .ok ⟨wc, rest.take hashLen⟩ else .error (.unsupportedTag tag)
    | _ => .error (.malformedInput raw.length)

/-- `canon(wc, hash)` (R154): the CanonicalAddress. -/
def canon (r : DecodedRecord) : List Byte := styleByte :: r.wc :: r.hash

/-- A byte sequence followed by its checksum, high byte first (R154, R55). -/
def withChecksum (s : List Byte) : List Byte := s ++ [highByte (crcSeq s), lowByte (crcSeq s)]

/-- `encoded(wc, hash)` (R154): the EncodedAddress. -/
def encodedAddress (r : DecodedRecord) : List Byte := withChecksum (canon r)

/-- `encode(wc, hash)` (R154): the AddressString. -/
def addressString (r : DecodedRecord) : List Byte := b64url (encodedAddress r)

/-- `convert(raw)` (R154). -/
def convert (raw : List Byte) : Except RecordError (List Byte) :=
  match decodeRecord raw with
  | .error e => .error e
  | .ok r => .ok (addressString r)

/-! ## The latched fault in the document's words (R181) -/

/-- The document's error that `ERR` and `ERRINFO` stand for (R181): the actual length with code 1, the offending tag with
code 2. Codes 3 and 4 have no counterpart in the document. -/
def State.documentError (s : State) : Option RecordError :=
  match s.latchedFault with
  | some .malformedInput => some (.malformedInput s.errInfo.toNat)
  | some .unsupportedTag => some (.unsupportedTag s.errInfo)
  | some .illegalCommand | some .txtOverflow | none => none

/-- The latched fault means that the host misused the engine, not that the record was bad (R181): codes 3 and 4. -/
def State.hostMisused (s : State) : Bool :=
  match s.latchedFault with
  | some .illegalCommand | some .txtOverflow => true
  | some .malformedInput | some .unsupportedTag | none => false

end Sys2Proof.Machine
end

