-- ==== Sys2Proof/Safety.lean ====
section
/-! DEFINITION. What the statements speak of: the invariants of the state the spec states, the command words of a host, and
runs. -/

namespace Sys2Proof.Machine

/-- The legal values and the ties between registers that hold after reset and that every command keeps: R25 to R27, R30 and
Table X1, with the canonical form of the two buffers. -/
structure State.Inv (s : State) : Prop where
  /-- `PH` is 0, 1 or 2 (R25). -/
  ph_legal : s.ph ≠ 3#2
  /-- `ACC` holds no bit at phase 0 (R25). -/
  acc_phase0 : s.ph = 0#2 → s.acc = 0#4
  /-- `ACC` holds two bits at phase 1 (R25). -/
  acc_phase1 : s.ph = 1#2 → s.acc.extractLsb 3 2 = 0#2
  /-- `TLEN` never exceeds 48 (R26). -/
  tlen_le : s.tlen.toNat ≤ 48
  /-- The cells below `TLEN` hold characters of the alphabet (R26). -/
  txt_filled : ∀ a, a < s.tlen.toNat → inAlphabet (s.memRead .txt a) = true
  /-- The cells from `TLEN` on hold zero (R26). -/
  txt_blank : ∀ a, s.tlen.toNat ≤ a → s.memRead .txt a = 0x00#8
  /-- `POS` is at most 34 (R27). -/
  pos_le : s.pos.toNat ≤ 34
  /-- The codes 5, 6 and 7 are never produced (R30, R170). -/
  err_le : s.err.toNat ≤ 4
  /-- Without a latched fault the context byte is zero (Table X1). -/
  no_fault : s.err = 0#3 → s.errInfo = 0x00#8
  /-- In the fault state there is no result (R176). -/
  fault_not_done : s.err ≠ 0#3 → s.done = false
  /-- Code 1 carries the record's length, 0 to 33, which `POS` still holds (Table X1). -/
  malformed : s.err = 1#3 → s.pos.toNat < 34 ∧ s.errInfo = s.pos.setWidth 8
  /-- Code 2 carries the offending tag, which `TAG` still holds (Table X1). -/
  wrong_tag : s.err = 2#3 → s.pos.toNat = 34 ∧ s.tag ≠ tagStd ∧ s.errInfo = s.tag
  /-- Code 4 carries `TLEN`, 46 to 48, which `TLEN` still holds (Table X1). -/
  overflow : s.err = 4#3 → 46 ≤ s.tlen.toNat ∧ s.errInfo = s.tlen.setWidth 8
  /-- `TXT` is in its canonical form. -/
  txt_wf : Memory.wf .txt s.txt = true
  /-- `EA` is in its canonical form. -/
  ea_wf : Memory.wf .ea s.ea = true

/-- What `DONE` vouches for (R29), over the state alone: the state keeps no history of records (R21). -/
def State.DoneVouches (s : State) : Prop :=
  s.done = true →
    s.err = 0#3 ∧ s.tag = tagStd ∧ s.pos = 0#6 ∧ s.ph = 0#2 ∧ s.acc = 0#4 ∧ s.tlen.toNat = 48 ∧
      [s.memRead .ea 34, s.memRead .ea 35] =
        [highByte (crcSeq (s.bytes .ea 0 34)), lowByte (crcSeq (s.bytes .ea 0 34))] ∧
      s.bytes .txt 0 48 = b64url (s.bytes .ea 0 36)

/-- The host's events for a sequence of commands. -/
def commands (is : List Instr) : List HostEvent := is.map (fun i => .command (encode i))

/-- `n` steps, stopping at the first fault or refusal: the host's `Core.run` of this machine (`run_eq_core`). -/
def run : Nat → State → Step
  | 0, s => .next s
  | n + 1, s =>
    match step s with
    | .next t => run n t
    | .fault e => .fault e
    | .refused r => .refused r

/-- The host issues these commands one after another, ahead of whatever it has to issue already (R61, R70). -/
def runCommands (is : List Instr) (s : State) : Step := run is.length { s with input := commands is ++ s.input }

end Sys2Proof.Machine
end

