-- ==== Sys2Proof/Certificates/Slice0/Obligations.lean ====
section
/-! DEFINITION. The statements for the provers. In a statement about a next state `t`, an equation `t = { s with ... }` is the
frame: every piece of state not named in it is as before, the buffers that are not named among it. -/

open Sys2Proof Sys2Proof.Machine

/-! ## Encoding -/

/-- Decoding the encoding of a command gives that command back exactly when its operand is one the encoding admits, for all
twelve commands and every operand (R71 to R75). -/
def Obligations.DecodeOfEncodeIsTheCommand : Prop :=
  ∀ i : Instr, decode (encode i) = .ok i ↔ i.wellFormed = true

/-- A word that decodes is the encoding of what it decodes to: no two words share a meaning and no bit is dropped (R71, R74). -/
def Obligations.EncodeOfDecodeIsTheWord : Prop :=
  ∀ (w : Word) (i : Instr), decode w = .ok i → encode i = w ∧ i.wellFormed = true

/-- The decoder accepts exactly the words of the predicate `legal` of R75, and there are 862 of them, counted over the 256
opcode bytes and the 256 operand bytes. -/
def Obligations.DecoderAcceptsExactlyTheLegalWords : Prop :=
  (∀ w : Word, legal w = true ↔ ∃ i, decode w = .ok i) ∧
  ((List.range 256).map (fun op =>
    (List.range 256).countP (fun imm => legal (commandOf (BitVec.ofNat 8 op) (BitVec.ofNat 8 imm))))).sum = 862

/-- Every rejected word is of one of the three kinds of R76, and is rejected by the name of its kind. -/
def Obligations.RejectedWordsAreNamedByTheirKind : Prop :=
  ∀ (w : Word) (e : Illegal), decode w = .error e →
    (opField w ∉ [0x01#8, 0x10#8, 0x11#8, 0x12#8, 0x20#8, 0x21#8, 0x22#8, 0x31#8, 0x32#8, 0x80#8, 0x81#8, 0x82#8] ∧
      e = .undefinedOpcode (opField w)) ∨
    (opField w ∈ [0x01#8, 0x10#8, 0x12#8, 0x20#8, 0x22#8, 0x32#8] ∧ immField w ≠ 0x00#8 ∧
      e = .operandNotZero (opField w) (immField w)) ∨
    ((opField w = 0x80#8 ∧ 4 ≤ (immField w).toNat ∨ opField w = 0x81#8 ∧ 36 ≤ (immField w).toNat ∨
        opField w = 0x82#8 ∧ 48 ≤ (immField w).toNat) ∧
      e = .operandPastLimit (opField w) (immField w))

/-- One word of each family, written out from Table E3, decodes to the command it stands for; the eight illegal
words of `95_test_vectors.md` 2.4 a, the nearest to the legal ones among them, do not decode. -/
def Obligations.WordsOfTableE3Decode : Prop :=
  decode 0x0100#16 = .ok .init ∧ decode 0x1000#16 = .ok .crcClr ∧ decode 0x1131#16 = .ok (.crcUpd 0x31#8) ∧
  decode 0x1200#16 = .ok .crcEmit ∧ decode 0x2000#16 = .ok .b64Clr ∧ decode 0x21FB#16 = .ok (.b64Push 0xFB#8) ∧
  decode 0x2200#16 = .ok .b64End ∧ decode 0x3143#16 = .ok (.adrByte 0x43#8) ∧ decode 0x3200#16 = .ok .adrEnd ∧
  decode 0x8003#16 = .ok (.rdr 3#8) ∧ decode 0x8123#16 = .ok (.rde 35#8) ∧ decode 0x822F#16 = .ok (.rdt 47#8) ∧
  decode 0x0000#16 = .error (.undefinedOpcode 0x00#8) ∧ decode 0xFFFF#16 = .error (.undefinedOpcode 0xFF#8) ∧
  decode 0x3000#16 = .error (.undefinedOpcode 0x30#8) ∧ decode 0x0101#16 = .error (.operandNotZero 0x01#8 1#8) ∧
  decode 0x1201#16 = .error (.operandNotZero 0x12#8 1#8) ∧ decode 0x8004#16 = .error (.operandPastLimit 0x80#8 4#8) ∧
  decode 0x8124#16 = .error (.operandPastLimit 0x81#8 36#8) ∧ decode 0x8230#16 = .error (.operandPastLimit 0x82#8 48#8)

/-! ## Steps and runs -/

/-- When the host's next event is a word that decodes, the step is `exec` of that command, on the state without that event. -/
def Obligations.StepRunsTheDecodedCommand : Prop :=
  ∀ (s : State) (w : Word) (rest : List HostEvent) (i : Instr),
    s.input = .command w :: rest → decode w = .ok i → step s = exec i { s with input := rest }

/-- The step function of R81 with the fault-state gate of R80, clause by clause, for every word. -/
def Obligations.StepIsTheStepFunctionOfR81 : Prop :=
  ∀ (s u : State) (w : Word) (rest : List HostEvent), s.input = .command w :: rest → u = { s with input := rest } →
    (s.err ≠ 0#3 → legal w = true ∧ opField w ∈ [0x01#8, 0x80#8, 0x81#8, 0x82#8] →
      ∃ i, decode w = .ok i ∧ encode i = w ∧ step s = exec i u) ∧
    (s.err ≠ 0#3 → ¬ (legal w = true ∧ opField w ∈ [0x01#8, 0x80#8, 0x81#8, 0x82#8]) → step s = .next u) ∧
    (s.err = 0#3 → legal w = false →
      step s = .next { u with err := 3#3, errInfo := opField w, done := false }) ∧
    (s.err = 0#3 → legal w = true → ∃ i, decode w = .ok i ∧ encode i = w ∧ step s = exec i u)

/-- The platform's reset gives the reset state whatever the state before (R200), and with no event the engine keeps all its
state (R9, R189). That reset and idling are events of a step is the model's form (log entries 1 and 2). -/
def Obligations.ResetResetsAndIdleKeeps : Prop :=
  (∀ (s : State) (rest : List HostEvent), s.input = .reset :: rest →
    step s = .next { State.reset with input := rest }) ∧
  (∀ s : State, s.input = [] → step s = .next s)

/-- Every step from a legal phase completes, with a fault of the engine latched or not, and so does every run: the step
function is total on all words and all reachable states (R70). -/
def Obligations.EveryRunCompletes : Prop :=
  ∀ (n : Nat) (s : State), s.ph ≠ 3#2 → ∃ t, run n s = .next t ∧ t.ph ≠ 3#2

/-- The effect of a command sequence is the left-to-right composition of the effects of its commands (R61). -/
def Obligations.RunsCompose : Prop :=
  ∀ (is js : List Instr) (s t : State), runCommands is s = .next t → runCommands (is ++ js) s = runCommands js t

/-- No command reads or changes the events still to come: the state after a command depends on the engine's state and the
command alone (R21, R36). -/
def Obligations.CommandsDoNotSeeTheInput : Prop :=
  ∀ (i : Instr) (s t : State) (evs : List HostEvent), exec i s = .next t →
    t.input = s.input ∧ exec i { s with input := evs } = .next { t with input := evs }

/-! ## Invariants -/

/-- Every step keeps the legal values and the ties between registers (R25, R26, R27, R30, Table X1) and the canonical form of
both buffers. -/
def Obligations.StepKeepsTheStateInvariant : Prop :=
  ∀ s t : State, s.Inv → step s = .next t → t.Inv

/-- The invariant of the base64url registers, R25 by itself: true after reset and kept by every step. -/
def Obligations.PhaseAndAccumulatorStayLegal : Prop :=
  (State.reset.ph ≠ 3#2 ∧ (State.reset.ph = 0#2 → State.reset.acc = 0#4) ∧
    (State.reset.ph = 1#2 → State.reset.acc.extractLsb 3 2 = 0#2)) ∧
  ∀ s t : State, s.ph ≠ 3#2 → (s.ph = 0#2 → s.acc = 0#4) → (s.ph = 1#2 → s.acc.extractLsb 3 2 = 0#2) →
    step s = .next t → t.ph ≠ 3#2 ∧ (t.ph = 0#2 → t.acc = 0#4) ∧ (t.ph = 1#2 → t.acc.extractLsb 3 2 = 0#2)

/-- `DONE` vouches for the result: every step keeps what R29 says holds while `DONE` is 1, the checksum in `EA` and the text in
`TXT` among it. -/
def Obligations.DoneAlwaysVouchesForTheResult : Prop :=
  ∀ s t : State, s.DoneVouches → step s = .next t → t.DoneVouches

/-- The reset state meets the invariants. -/
def Obligations.ResetMeetsTheInvariants : Prop := State.reset.Inv ∧ State.reset.DoneVouches

/-! ## Who changes what (Table S1, R29, R33, R53) -/

/-- A register changes only by the commands Table S1 names as its writers, `DONE` rising and falling each by its own; `ERR`,
`ERRINFO` and a fall of `DONE` come by fault entry too. -/
def Obligations.RegistersChangeOnlyByTheirWriters : Prop :=
  ∀ (i : Instr) (s t : State), exec i s = .next t →
    (t.crc ≠ s.crc → i = .init ∨ i = .crcClr ∨ (∃ b, i = .crcUpd b) ∨ i = .adrEnd) ∧
    (t.acc ≠ s.acc ∨ t.ph ≠ s.ph ∨ t.tlen ≠ s.tlen →
      i = .init ∨ i = .b64Clr ∨ (∃ b, i = .b64Push b) ∨ i = .b64End ∨ i = .crcEmit ∨ i = .adrEnd) ∧
    (t.pos ≠ s.pos → i = .init ∨ (∃ b, i = .adrByte b) ∨ i = .adrEnd) ∧
    (t.tag ≠ s.tag → i = .init ∨ ((∃ b, i = .adrByte b) ∧ s.pos = 0#6)) ∧
    (t.resp ≠ s.resp → i = .init ∨ (∃ n, i = .rdr n) ∨ (∃ a, i = .rde a) ∨ ∃ a, i = .rdt a) ∧
    (t.done ≠ s.done →
      (t.done = true ∧ i = .adrEnd ∧ t.err = 0#3) ∨
      (t.done = false ∧ (i = .init ∨ (∃ b, i = .adrByte b) ∨ i = .b64Clr ∨ (∃ b, i = .b64Push b) ∨ i = .b64End ∨
        i = .crcEmit ∨ (s.err = 0#3 ∧ t.err ≠ 0#3)))) ∧
    (t.err ≠ s.err ∨ t.errInfo ≠ s.errInfo →
      i = .init ∨ (s.err = 0#3 ∧ t.done = false ∧
        ((∃ b, i = .b64Push b) ∨ i = .b64End ∨ i = .crcEmit ∨ i = .adrEnd ∨ i.wellFormed = false)))

/-- Which commands reach which buffer, and where (R53): `EA` is written by `ADR.BYTE` at `POS` from 1 to 33, by `ADR.END` at 34
and 35 and by `INIT`; `TXT` by the appending commands from `TLEN` up and, as a whole, by `B64.CLR`, `INIT` and `ADR.END`. -/
def Obligations.BuffersChangeOnlyWhereR53Says : Prop :=
  ∀ (i : Instr) (s t : State) (a : Nat), exec i s = .next t →
    (t.memRead .ea a ≠ s.memRead .ea a →
      i = .init ∨ ((∃ b, i = .adrByte b) ∧ a = s.pos.toNat ∧ 1 ≤ a ∧ a ≤ 33) ∨ (i = .adrEnd ∧ (a = 34 ∨ a = 35))) ∧
    (t.memRead .txt a ≠ s.memRead .txt a →
      i = .init ∨ i = .b64Clr ∨ i = .adrEnd ∨
        (((∃ b, i = .b64Push b) ∨ i = .b64End ∨ i = .crcEmit) ∧ s.tlen.toNat ≤ a ∧ a < t.tlen.toNat))

/-- What each well-formed command makes of `DONE` outside the fault state (R29): set by a successful `ADR.END` alone, kept by
`CRC.CLR`, `CRC.UPD` and the reads, and cleared by every other command. -/
def Obligations.DoneFollowsTheCommand : Prop :=
  ∀ (i : Instr) (s t : State), s.err = 0#3 → i.wellFormed = true → exec i s = .next t →
    match i with
    | .adrEnd => t.done = true ↔ t.err = 0#3
    | .crcClr | .crcUpd _ | .rdr _ | .rde _ | .rdt _ => t.done = s.done
    | .init | .crcEmit | .b64Clr | .b64Push _ | .b64End | .adrByte _ => t.done = false

/-- `INIT` zeroes `RESP`; every other word but a legal read leaves it, discarded and illegal words among them, and so does a
step without an event (R33). -/
def Obligations.ResponseChangesOnlyByReadsAndInit : Prop :=
  (∀ (s t : State) (w : Word) (rest : List HostEvent), s.input = .command w :: rest → step s = .next t →
    (w = 0x0100#16 → t.resp = 0x0000#16) ∧
    (w ≠ 0x0100#16 → ¬ (legal w = true ∧ opField w ∈ [0x80#8, 0x81#8, 0x82#8]) → t.resp = s.resp)) ∧
  (∀ s t : State, s.input = [] → step s = .next t → t.resp = s.resp)

/-- The two outputs are `DONE` and the flag `ERR ≠ 0`, both 0 at reset, and `RDR 0` shows them in bits 0 and 1 (R186, R41). -/
def Obligations.OutputsAreDoneAndFault : Prop :=
  (State.reset.doneOut = false ∧ State.reset.faultOut = false) ∧
  ∀ s : State, s.doneOut = s.done ∧ (s.faultOut = true ↔ s.err ≠ 0#3) ∧
    ∃ r : Word, exec (.rdr 0#8) s = .next { s with resp := r } ∧ r.getLsbD 0 = s.doneOut ∧ r.getLsbD 1 = s.faultOut

/-! ## Faults -/

/-- Fault entry writes `ERR`, `ERRINFO` and `DONE`, and nothing else: whatever command faults has no other effect (R175,
R180). -/
def Obligations.FaultEntryChangesNothingElse : Prop :=
  ∀ (i : Instr) (s t : State), s.err = 0#3 → exec i s = .next t → t.err ≠ 0#3 →
    t = { s with err := t.err, errInfo := t.errInfo, done := false }

/-- Table X1: which command raises which code, on what condition, with what context byte; codes 5 to 7 never (R170 to R174). -/
def Obligations.FaultCausesAndContexts : Prop :=
  ∀ (i : Instr) (s t : State), s.err = 0#3 → s.ph ≠ 3#2 → exec i s = .next t → t.err ≠ 0#3 →
    (t.err = 1#3 ∧ i = .adrEnd ∧ s.pos.toNat < 34 ∧ t.errInfo.toNat = s.pos.toNat) ∨
    (t.err = 2#3 ∧ i = .adrEnd ∧ 34 ≤ s.pos.toNat ∧ s.tag ≠ 0x43#8 ∧ t.errInfo = s.tag) ∨
    (t.err = 3#3 ∧ i.wellFormed = false ∧ t.errInfo = i.opcode) ∨
    (t.err = 4#3 ∧ t.errInfo.toNat = s.tlen.toNat ∧
      (((∃ b, i = .b64Push b) ∧ 48 < s.tlen.toNat + (if s.ph = 2#2 then 2 else 1)) ∨
        (i = .b64End ∧ 48 < s.tlen.toNat + (if s.ph = 0#2 then 0 else 1)) ∨
        (i = .crcEmit ∧ 48 < s.tlen.toNat + (if s.ph = 0#2 then 2 else 3))))

/-- In the fault state a command other than `INIT` changes nothing but, where it is a read, `RESP`: the first fault stays and
no new one is raised (R176, R179). -/
def Obligations.FaultStateChangesOnlyTheResponse : Prop :=
  ∀ (i : Instr) (s : State), s.err ≠ 0#3 → i ≠ .init →
    ∃ r : Word, exec i s = .next { s with resp := r } ∧
      ((∀ n, i ≠ .rdr n) → (∀ a, i ≠ .rde a) → (∀ a, i ≠ .rdt a) → r = s.resp)

/-- Only `INIT` and the platform's reset leave the fault state, and both put the whole engine in the reset state (R178). That
reset comes as an event of a step is the model's form (log entry 2). -/
def Obligations.OnlyInitAndResetLeaveTheFaultState : Prop :=
  ∀ s : State, s.err ≠ 0#3 →
    ((∃ t, step s = .next t ∧ t.err = 0#3) ↔ ∃ rest, s.input = .reset :: rest ∨ s.input = .command 0x0100#16 :: rest) ∧
    (∀ t, step s = .next t → t.err = 0#3 → t = { State.reset with input := s.input.tail }) ∧
    (∀ t, step s = .next t → t.err ≠ 0#3 → t = { s with resp := t.resp, input := s.input.tail })

/-! ## System and read commands -/

/-- `INIT` (R100): every piece of state of Table S3 at its reset value, whatever the state before; the events still to come are
no state of the engine. `0x0100` alone is `INIT`: with another operand the word is an illegal command, and no other command
leaves the fault state. -/
def Obligations.InitGivesTheResetState : Prop :=
  encode .init = 0x0100#16 ∧
  (∀ (s : State) (imm : Byte) (rest : List HostEvent), imm ≠ 0x00#8 → s.input = .command (commandOf 0x01#8 imm) :: rest →
    (s.err = 0#3 → step s = .next { s with err := 3#3, errInfo := 0x01#8, done := false, input := rest }) ∧
    (s.err ≠ 0#3 → step s = .next { s with input := rest })) ∧
  (∀ (i : Instr) (s t : State), s.err ≠ 0#3 → exec i s = .next t → t.err = 0#3 → i = .init) ∧
  ∀ s : State, ∃ t, exec .init s = .next t ∧ t = { State.reset with input := s.input } ∧
    t.crc = 0x0000#16 ∧ t.acc = 0#4 ∧ t.ph = 0#2 ∧ t.tlen = 0#6 ∧ t.pos = 0#6 ∧ t.tag = 0x00#8 ∧ t.done = false ∧
    t.err = 0#3 ∧ t.errInfo = 0x00#8 ∧ t.resp = 0x0000#16 ∧ t.memRead .ea 0 = 0x51#8 ∧
    (∀ a, 1 ≤ a → a ≤ 35 → t.memRead .ea a = 0x00#8) ∧ (∀ a, a ≤ 47 → t.memRead .txt a = 0x00#8)

/-- `RDR n` (R101) in every state, the fault state included: the status words of Table S2 bit by bit (R41 to R44), all zero
after reset; only `RESP` changes. A number past 3 is an illegal command. -/
def Obligations.RdrReadsTheStatusWords : Prop :=
  (∀ s : State, ∃ r0 r1 r2 r3 : Word,
    (exec (.rdr 0#8) s = .next { s with resp := r0 } ∧ exec (.rdr 1#8) s = .next { s with resp := r1 } ∧
      exec (.rdr 2#8) s = .next { s with resp := r2 } ∧ exec (.rdr 3#8) s = .next { s with resp := r3 }) ∧
    (r0.getLsbD 0 = s.done ∧ (r0.getLsbD 1 = true ↔ s.err ≠ 0#3) ∧ r0.extractLsb 4 2 = s.err ∧
      r0.extractLsb 7 5 = 0#3 ∧ r0.extractLsb 15 8 = s.errInfo) ∧
    r1 = s.crc ∧
    (r2.extractLsb 5 0 = s.tlen ∧ r2.extractLsb 7 6 = 0#2 ∧ r2.extractLsb 11 8 = s.acc ∧ r2.extractLsb 13 12 = s.ph ∧
      r2.extractLsb 15 14 = 0#2) ∧
    (r3.extractLsb 5 0 = s.pos ∧ r3.extractLsb 7 6 = 0#2 ∧ r3.extractLsb 15 8 = s.tag)) ∧
  (∀ n : Byte, n.toNat < 4 → exec (.rdr n) State.reset = .next { State.reset with resp := 0x0000#16 }) ∧
  (∀ n : Byte, encode (.rdr n) = 0x8000#16 ||| n.setWidth 16) ∧
  (∀ (s : State) (n : Byte), 4 ≤ n.toNat →
    (s.err = 0#3 → exec (.rdr n) s = .next { s with err := 3#3, errInfo := 0x80#8, done := false }) ∧
    (s.err ≠ 0#3 → exec (.rdr n) s = .next s))

/-- `RDE a` (R102) in every state: `RESP` takes the byte, zero-extended, and nothing else changes; `RDE 0` reads `0x0051`
always. An address past 35 is an illegal command. -/
def Obligations.RdeReadsOneByteOfTheAddress : Prop :=
  ∀ (s : State) (a : Byte), encode (.rde a) = 0x8100#16 ||| a.setWidth 16 ∧
    exec (.rde 0#8) s = .next { s with resp := 0x0051#16 } ∧
    (a.toNat ≤ 35 → ∃ r : Word, exec (.rde a) s = .next { s with resp := r } ∧ r.extractLsb 15 8 = 0x00#8 ∧
      r.extractLsb 7 0 = s.memRead .ea a.toNat) ∧
    (36 ≤ a.toNat → s.err = 0#3 → exec (.rde a) s = .next { s with err := 3#3, errInfo := 0x81#8, done := false }) ∧
    (36 ≤ a.toNat → s.err ≠ 0#3 → exec (.rde a) s = .next s)

/-- `RDT a` (R103) in every state: `RESP` takes the character, zero-extended, and nothing else changes; from `TLEN` on it reads
`0x0000` where R26 holds. An address past 47 is an illegal command. -/
def Obligations.RdtReadsOneCharacterOfTheText : Prop :=
  ∀ (s : State) (a : Byte), encode (.rdt a) = 0x8200#16 ||| a.setWidth 16 ∧
    (a.toNat ≤ 47 → ∃ r : Word, exec (.rdt a) s = .next { s with resp := r } ∧ r.extractLsb 15 8 = 0x00#8 ∧
      r.extractLsb 7 0 = s.memRead .txt a.toNat ∧ (s.Inv → s.tlen.toNat ≤ a.toNat → r = 0x0000#16)) ∧
    (48 ≤ a.toNat → s.err = 0#3 → exec (.rdt a) s = .next { s with err := 3#3, errInfo := 0x82#8, done := false }) ∧
    (48 ≤ a.toNat → s.err ≠ 0#3 → exec (.rdt a) s = .next s)

/-! ## The CRC unit -/

/-- `CRC.CLR` (R114): the register takes its initial value, and nothing else changes; nothing at all in the fault state. -/
def Obligations.CrcClrClearsTheRegister : Prop :=
  (encode .crcClr = 0x1000#16 ∧ ∀ imm : Byte, imm ≠ 0x00#8 → ∃ e, decode (commandOf 0x10#8 imm) = .error e) ∧
  ∀ s : State, (s.err = 0#3 → exec .crcClr s = .next { s with crc := 0x0000#16 }) ∧
    (s.err ≠ 0#3 → exec .crcClr s = .next s)

/-- `CRC.UPD b` (R115): one byte into the register, and nothing else changes; nothing at all in the fault state. After `CRC.CLR`
and a `CRC.UPD` for each byte of a sequence the register holds its checksum, and without the clear it goes on from its old
value. -/
def Obligations.CrcUpdFoldsBytes : Prop :=
  (∀ b : Byte, encode (.crcUpd b) = 0x1100#16 ||| b.setWidth 16 ∧ decode (0x1100#16 ||| b.setWidth 16) = .ok (.crcUpd b)) ∧
  (∀ (s : State) (b : Byte), (s.err = 0#3 → exec (.crcUpd b) s = .next { s with crc := crcByte s.crc b }) ∧
    (s.err ≠ 0#3 → exec (.crcUpd b) s = .next s)) ∧
  (∀ (s : State) (bs : List Byte), s.err = 0#3 →
    runCommands (.crcClr :: bs.map .crcUpd) s = .next { s with crc := crcSeq bs } ∧
    runCommands (bs.map .crcUpd) s = .next { s with crc := bs.foldl crcByte s.crc })

/-- The laws of the checksum, R113 whole: linearity over exclusive or, zero stays zero, the table form, and a sequence followed
by its own checksum has checksum zero. -/
def Obligations.ChecksumLaws : Prop :=
  (∀ (c1 c2 : Word) (b1 b2 : Byte), crcByte (c1 ^^^ c2) (b1 ^^^ b2) = crcByte c1 b1 ^^^ crcByte c2 b2) ∧
  (crcByte 0x0000#16 0x00#8 = 0x0000#16 ∧ ∀ (n : Nat) (s : List Byte), crcSeq (List.replicate n 0x00#8 ++ s) = crcSeq s) ∧
  (∀ (c : Word) (b : Byte), crcByte c b = (c <<< 8) ^^^ crcByte 0x0000#16 (c.extractLsb 15 8 ^^^ b)) ∧
  (∀ c : Word, crcByte c (c.extractLsb 15 8) = (c.extractLsb 7 0 : Byte).setWidth 16 <<< 8) ∧
  (∀ s : List Byte, crcSeq (s ++ [(crcSeq s).extractLsb 15 8, (crcSeq s).extractLsb 7 0]) = 0x0000#16)

/-- `CRC.EMIT` (R116): the effect of `B64.PUSH CRC[15:8]` then `B64.PUSH CRC[7:0]`, with one overflow test for both: either both
bytes are taken or neither. `PH` moves by two; `CRC` and every cell outside the appended characters stay. R25 rules out
`PH = 3`. -/
def Obligations.CrcEmitAppendsTheChecksum : Prop :=
  (encode .crcEmit = 0x1200#16 ∧ ∀ imm : Byte, imm ≠ 0x00#8 → ∃ e, decode (commandOf 0x12#8 imm) = .error e) ∧
  ∀ (s : State) (n : Nat), s.ph ≠ 3#2 → n = (if s.ph = 0#2 then 2 else 3) →
    (s.err = 0#3 → s.tlen.toNat + n ≤ 48 → ∃ u t,
      exec (.b64Push (s.crc.extractLsb 15 8)) s = .next u ∧ exec (.b64Push (s.crc.extractLsb 7 0)) u = .next t ∧
      exec .crcEmit s = .next t ∧
      t = { s with acc := t.acc, ph := t.ph, tlen := t.tlen, txt := t.txt, done := false } ∧
      t.ph.toNat = (s.ph.toNat + 2) % 3 ∧ t.tlen.toNat = s.tlen.toNat + n ∧
      ∀ a, a < s.tlen.toNat ∨ t.tlen.toNat ≤ a → t.memRead .txt a = s.memRead .txt a) ∧
    (s.err = 0#3 → 48 < s.tlen.toNat + n →
      exec .crcEmit s = .next { s with err := 4#3, errInfo := s.tlen.setWidth 8, done := false }) ∧
    (s.err ≠ 0#3 → exec .crcEmit s = .next s)

/-! ## The base64url unit -/

/-- `B64.CLR` (R135): every cell of `TXT` zero, the accumulator, phase and count zero, `DONE` falls, and nothing else changes;
nothing at all in the fault state. -/
def Obligations.B64ClrEmptiesTheText : Prop :=
  (encode .b64Clr = 0x2000#16 ∧ ∀ imm : Byte, imm ≠ 0x00#8 → ∃ e, decode (commandOf 0x20#8 imm) = .error e) ∧
  ∀ s : State,
    (s.err = 0#3 → ∃ t, exec .b64Clr s = .next t ∧
      t = { s with acc := 0#4, ph := 0#2, tlen := 0#6, txt := t.txt, done := false } ∧
      ∀ a, t.memRead .txt a = 0x00#8) ∧
    (s.err ≠ 0#3 → exec .b64Clr s = .next s)

/-- `B64.PUSH b` (R136, R133), phase by phase: which characters go to `TXT[TLEN]` and, at phase 2, `TXT[TLEN + 1]`, and what stays
waiting; every other cell and register stays. Where the characters do not fit it faults with `TLEN` and changes nothing
else. -/
def Obligations.B64PushEncodesOneByte : Prop :=
  (∀ b : Byte, encode (.b64Push b) = 0x2100#16 ||| b.setWidth 16 ∧ decode (0x2100#16 ||| b.setWidth 16) = .ok (.b64Push b)) ∧
  ∀ (s : State) (b : Byte),
    (s.err = 0#3 → s.ph = 0#2 → s.tlen.toNat ≤ 47 → ∃ t, exec (.b64Push b) s = .next t ∧
      t = { s with acc := 0b00#2 ++ b.extractLsb 1 0, ph := 1#2, tlen := s.tlen + 1#6, txt := t.txt, done := false } ∧
      t.memRead .txt s.tlen.toNat = alpha (b.extractLsb 7 2) ∧
      ∀ a, a ≠ s.tlen.toNat → t.memRead .txt a = s.memRead .txt a) ∧
    (s.err = 0#3 → s.ph = 1#2 → s.tlen.toNat ≤ 47 → ∃ t, exec (.b64Push b) s = .next t ∧
      t = { s with acc := b.extractLsb 3 0, ph := 2#2, tlen := s.tlen + 1#6, txt := t.txt, done := false } ∧
      t.memRead .txt s.tlen.toNat = alpha (s.acc.extractLsb 1 0 ++ b.extractLsb 7 4) ∧
      ∀ a, a ≠ s.tlen.toNat → t.memRead .txt a = s.memRead .txt a) ∧
    (s.err = 0#3 → s.ph = 2#2 → s.tlen.toNat ≤ 46 → ∃ t, exec (.b64Push b) s = .next t ∧
      t = { s with acc := 0#4, ph := 0#2, tlen := s.tlen + 2#6, txt := t.txt, done := false } ∧
      t.memRead .txt s.tlen.toNat = alpha (s.acc ++ b.extractLsb 7 6) ∧
      t.memRead .txt (s.tlen.toNat + 1) = alpha (b.extractLsb 5 0) ∧
      ∀ a, a ≠ s.tlen.toNat → a ≠ s.tlen.toNat + 1 → t.memRead .txt a = s.memRead .txt a) ∧
    (s.err = 0#3 → (s.ph = 2#2 ∧ 46 < s.tlen.toNat) ∨ (s.ph ≠ 2#2 ∧ 47 < s.tlen.toNat) →
      exec (.b64Push b) s = .next { s with err := 4#3, errInfo := s.tlen.setWidth 8, done := false }) ∧
    (s.err ≠ 0#3 → exec (.b64Push b) s = .next s)

/-- `B64.END` (R137): the last partial group's one character, filled with zero bits, or none at phase 0; the text stays. Where
the character does not fit it faults with `TLEN` and changes nothing else. -/
def Obligations.B64EndFlushesTheLastGroup : Prop :=
  (encode .b64End = 0x2200#16 ∧ ∀ imm : Byte, imm ≠ 0x00#8 → ∃ e, decode (commandOf 0x22#8 imm) = .error e) ∧
  ∀ s : State,
    (s.err = 0#3 → s.ph = 0#2 → s.tlen.toNat ≤ 48 → exec .b64End s = .next { s with acc := 0#4, done := false }) ∧
    (s.err = 0#3 → s.ph = 1#2 → s.tlen.toNat ≤ 47 → ∃ t, exec .b64End s = .next t ∧
      t = { s with acc := 0#4, ph := 0#2, tlen := s.tlen + 1#6, txt := t.txt, done := false } ∧
      t.memRead .txt s.tlen.toNat = alpha (s.acc.extractLsb 1 0 ++ 0b0000#4) ∧
      ∀ a, a ≠ s.tlen.toNat → t.memRead .txt a = s.memRead .txt a) ∧
    (s.err = 0#3 → s.ph = 2#2 → s.tlen.toNat ≤ 47 → ∃ t, exec .b64End s = .next t ∧
      t = { s with acc := 0#4, ph := 0#2, tlen := s.tlen + 1#6, txt := t.txt, done := false } ∧
      t.memRead .txt s.tlen.toNat = alpha (s.acc ++ 0b00#2) ∧
      ∀ a, a ≠ s.tlen.toNat → t.memRead .txt a = s.memRead .txt a) ∧
    (s.err = 0#3 → s.ph ≠ 0#2 → 47 < s.tlen.toNat →
      exec .b64End s = .next { s with err := 4#3, errInfo := s.tlen.setWidth 8, done := false }) ∧
    (s.err ≠ 0#3 → exec .b64End s = .next s)

/-- `B64.CLR`, a `B64.PUSH` for each byte of a message and `B64.END` leave the message's text in `TXT`, when it has at most 36
bytes; a longer one overflows (R138). -/
def Obligations.StreamedTextIsTheTextOfTheMessage : Prop :=
  ∀ (s : State) (bs : List Byte), s.err = 0#3 →
    (bs.length ≤ 36 → ∃ t, runCommands (Pseudo.b64Enc bs).expand s = .next t ∧
      t = { s with acc := 0#4, ph := 0#2, tlen := t.tlen, txt := t.txt, done := false } ∧
      t.tlen.toNat = (b64url bs).length ∧ t.bytes .txt 0 t.tlen.toNat = b64url bs ∧
      ∀ a, t.tlen.toNat ≤ a → t.memRead .txt a = 0x00#8) ∧
    (36 < bs.length → ∃ t, runCommands (Pseudo.b64Enc bs).expand s = .next t ∧ t.err = 4#3 ∧ t.errInfo = 48#8 ∧
      t.done = false)

/-- The length of a text (R139): the ceiling of `4 * len(s) / 3`; for 36 bytes it is 48 and no leftover exists. -/
def Obligations.TextLengthLaw : Prop :=
  (∀ s : List Byte, (b64url s).length = 4 * (s.length / 3) + (if s.length % 3 = 0 then 0 else if s.length % 3 = 1 then 2 else 3) ∧
    (b64url s).length = (4 * s.length + 2) / 3) ∧
  (∀ s : List Byte, s.length = 36 → (b64url s).length = 48) ∧ nchars 0 36 = 48 ∧ (0 + 36) % 3 = 0

/-- A text gives its bytes back (R141): the inverse of `95_test_vectors.md` section 5 undoes `b64url`, which is therefore
injective, and 48 characters come from 36 bytes only. -/
def Obligations.TextDeterminesTheBytes : Prop :=
  (∀ s : List Byte, unb64url (b64url s) = some s) ∧
  (∀ s t : List Byte, s.length = t.length → b64url s = b64url t → s = t) ∧
  (∀ s : List Byte, (b64url s).length = 48 ↔ s.length = 36)

/-- A text holds characters of the alphabet only, never the padding character (R130, R140); `alpha` is injective. -/
def Obligations.TextHoldsOnlyAlphabetCharacters : Prop :=
  (∀ s : List Byte, ∀ c ∈ b64url s, inAlphabet c = true ∧ c ≠ 0x3D#8 ∧ c ≠ 0x00#8) ∧
  (∀ i j : BitVec 6, alpha i = alpha j → i = j)

/-- The texts of pieces join to the text of the whole when every piece but the last is a multiple of 3 bytes (R206). -/
def Obligations.PiecewiseTextsJoin : Prop :=
  ∀ (pieces : List (List Byte)) (last : List Byte), (∀ p ∈ pieces, p.length % 3 = 0) →
    b64url (pieces.flatten ++ last) = (pieces.map b64url).flatten ++ b64url last

/-! ## The address unit -/

/-- `ADR.BYTE b` (R151): byte 0 is the tag, bytes 1 to 33 go unchanged to `EA[POS]`, later ones nowhere; `POS` goes up and
saturates at 34, `DONE` falls, and nothing else changes; nothing at all in the fault state. -/
def Obligations.AdrByteReceivesOneByte : Prop :=
  (∀ b : Byte, encode (.adrByte b) = 0x3100#16 ||| b.setWidth 16 ∧ decode (0x3100#16 ||| b.setWidth 16) = .ok (.adrByte b)) ∧
  ∀ (s : State) (b : Byte),
    (s.err = 0#3 → s.pos = 0#6 → exec (.adrByte b) s = .next { s with tag := b, pos := 1#6, done := false }) ∧
    (s.err = 0#3 → 1 ≤ s.pos.toNat → s.pos.toNat ≤ 33 → ∃ t, exec (.adrByte b) s = .next t ∧
      t = { s with ea := t.ea, pos := s.pos + 1#6, done := false } ∧ t.memRead .ea s.pos.toNat = b ∧
      ∀ a, a ≠ s.pos.toNat → t.memRead .ea a = s.memRead .ea a) ∧
    (s.err = 0#3 → 34 ≤ s.pos.toNat → exec (.adrByte b) s = .next { s with pos := 34#6, done := false }) ∧
    (s.err ≠ 0#3 → exec (.adrByte b) s = .next s)

/-- `ADR.END` (R152): the length test, then the tag test, each with its context and no other effect; on success the checksum
of `EA[0..33]` in `CRC` and, high byte first, in `EA[34..35]`, and the text of `EA[0..35]` in `TXT`, whatever the other two
units held before; nothing at all in the fault state. -/
def Obligations.AdrEndBuildsTheAddress : Prop :=
  (encode .adrEnd = 0x3200#16 ∧ ∀ imm : Byte, imm ≠ 0x00#8 → ∃ e, decode (commandOf 0x32#8 imm) = .error e) ∧
  ∀ s : State,
    (s.err = 0#3 → s.pos.toNat < 34 →
      exec .adrEnd s = .next { s with err := 1#3, errInfo := s.pos.setWidth 8, done := false }) ∧
    (s.err = 0#3 → 34 ≤ s.pos.toNat → s.tag ≠ 0x43#8 →
      exec .adrEnd s = .next { s with err := 2#3, errInfo := s.tag, done := false }) ∧
    (s.err = 0#3 → 34 ≤ s.pos.toNat → s.tag = 0x43#8 → ∃ t, exec .adrEnd s = .next t ∧
      t = { s with crc := crcSeq (s.bytes .ea 0 34), acc := 0#4, ph := 0#2, tlen := 48#6, txt := t.txt, ea := t.ea,
                   pos := 0#6, done := true } ∧
      t.memRead .ea 34 = t.crc.extractLsb 15 8 ∧ t.memRead .ea 35 = t.crc.extractLsb 7 0 ∧
      (∀ a, a ≠ 34 → a ≠ 35 → t.memRead .ea a = s.memRead .ea a) ∧
      t.bytes .txt 0 48 = b64url (t.bytes .ea 0 36)) ∧
    (s.err ≠ 0#3 → exec .adrEnd s = .next s)

/-- The bytes of a record land where R150, R27 and R28 say: `POS` is the number received, at most 34; the tag is byte 0; `EA[k]` is
byte k for k from 1 to 33; every other cell of `EA` stays. -/
def Obligations.RecordBytesLandInTheirCells : Prop :=
  ∀ (s : State) (raw : List Byte), s.err = 0#3 → s.pos = 0#6 →
    ∃ t, runCommands (raw.map .adrByte) s = .next t ∧
      t = { s with ea := t.ea, tag := t.tag, pos := t.pos, done := t.done } ∧
      t.pos.toNat = min raw.length 34 ∧ t.tag = raw.headD s.tag ∧ (raw ≠ [] → t.done = false) ∧
      (∀ (k : Nat) (h : k < raw.length), 1 ≤ k → k ≤ 33 → t.memRead .ea k = raw[k]) ∧
      (∀ a, a = 0 ∨ min raw.length 34 ≤ a → t.memRead .ea a = s.memRead .ea a)

/-- The workchain byte is stored bit for bit, and its signed view is the two's-complement reading of the byte (R153). -/
def Obligations.WorkchainByteKeepsItsSign : Prop :=
  ∀ (s : State) (b : Byte), s.err = 0#3 → s.pos = 1#6 → ∃ t, exec (.adrByte b) s = .next t ∧ t.memRead .ea 1 = b ∧
    t.workchain = if b ≤ 0x7F#8 then (b.toNat : Int) else (b.toNat : Int) - 256

/-- The commands of one conversion compute the document's `convert` (R155), from any state with the leading `INIT`, and without
it from a state outside the fault state with no record open, where the two errors leave the text as it was. -/
def Obligations.ConversionComputesConvert : Prop :=
  (∀ (s : State) (raw : List Byte), ∃ t, runCommands (.init :: raw.map .adrByte ++ [.adrEnd]) s = .next t ∧
    match convert raw with
    | .error (.malformedInput n) => n = raw.length ∧ n ≤ 33 ∧ t.err = 1#3 ∧ t.errInfo.toNat = n ∧ t.done = false ∧
        t.tlen = 0#6
    | .error (.unsupportedTag tag) => t.err = 2#3 ∧ t.errInfo = tag ∧ t.done = false ∧ t.tlen = 0#6
    | .ok text => t.err = 0#3 ∧ t.done = true ∧ t.tlen = 48#6 ∧ t.bytes .txt 0 48 = text ∧
        t.bytes .ea 0 36 = encodedAddress ⟨raw.getD 1 0, (raw.drop 2).take 32⟩ ∧ t.crc = crcSeq (t.bytes .ea 0 34)) ∧
  (∀ (s : State) (raw : List Byte), s.err = 0#3 → s.pos = 0#6 →
    ∃ t, runCommands (raw.map .adrByte ++ [.adrEnd]) s = .next t ∧
    match convert raw with
    | .error (.malformedInput n) => n = raw.length ∧ n ≤ 33 ∧ t.err = 1#3 ∧ t.errInfo.toNat = n ∧ t.done = false ∧
        t.tlen = s.tlen ∧ t.txt = s.txt
    | .error (.unsupportedTag tag) => t.err = 2#3 ∧ t.errInfo = tag ∧ t.done = false ∧ t.tlen = s.tlen ∧ t.txt = s.txt
    | .ok text => t.err = 0#3 ∧ t.done = true ∧ t.tlen = 48#6 ∧ t.bytes .txt 0 48 = text ∧
        t.bytes .ea 0 36 = encodedAddress ⟨raw.getD 1 0, (raw.drop 2).take 32⟩ ∧ t.crc = crcSeq (t.bytes .ea 0 34))

/-- The state after `CONVERT raw` depends on `raw` alone (R158): nothing of any earlier call shows. -/
def Obligations.ConversionDependsOnTheRecordAlone : Prop :=
  ∀ (raw : List Byte) (s s' : State), ∃ t : State,
    runCommands (Pseudo.convert raw).expand s = .next { t with input := s.input } ∧
    runCommands (Pseudo.convert raw).expand s' = .next { t with input := s'.input }

/-- The ignored tail of a record changes nothing, however long, and a leading zero byte is not dropped (R151, R159): it is the
tag, and the wrong one. -/
def Obligations.TailIsIgnoredAndLeadingZeroIsTheTag : Prop :=
  (∀ (s : State) (raw tail : List Byte), 34 ≤ raw.length →
    runCommands (Pseudo.convert (raw ++ tail)).expand s = runCommands (Pseudo.convert raw).expand s) ∧
  (∀ (s : State) (rest : List Byte), 33 ≤ rest.length → ∃ t,
    runCommands (.init :: (0x00#8 :: rest).map .adrByte ++ [.adrEnd]) s = .next t ∧ t.err = 2#3 ∧ t.errInfo = 0x00#8)

/-! ## The document's words for the faults -/

/-- The two fault registers in the document's words (R181): code 1 is `MalformedInputError` of the length in `ERRINFO`, code 2
`UnsupportedTagError` of the tag in it, and codes 3 and 4 alone are the host's misuse and no error of the document. Only
`ADR.END` gives one of the document's errors, so the CRC and base64url units never do, and a conversion gives exactly the
error that the document's `convert` gives. -/
def Obligations.FaultsSpeakTheDocumentsWords : Prop :=
  (∀ s : State,
    (s.err = 1#3 → s.documentError = some (.malformedInput s.errInfo.toNat)) ∧
    (s.err = 2#3 → s.documentError = some (.unsupportedTag s.errInfo)) ∧
    (s.err ≠ 1#3 → s.err ≠ 2#3 → s.documentError = none) ∧
    (s.hostMisused = true ↔ s.err = 3#3 ∨ s.err = 4#3)) ∧
  (∀ (i : Instr) (s t : State), s.documentError = none → exec i s = .next t → t.documentError ≠ none → i = .adrEnd) ∧
  (∀ (s : State) (raw : List Byte), ∃ t, runCommands (.init :: raw.map .adrByte ++ [.adrEnd]) s = .next t ∧
    t.hostMisused = false ∧
    match convert raw with
    | .error e => t.documentError = some e
    | .ok _ => t.documentError = none)
end

