-- ==== Sys2Proof/Laws/State.lean ====
section
/-! SUPPORT. What each named update of the state does to each field, and what it does to the reads. -/

namespace Sys2Proof.Machine

/-! ### `raiseFault` -/

@[simp] theorem State.raiseFault_crc (s : State) (c : FaultCode) (info : Byte) : (s.raiseFault c info).crc = s.crc := rfl
@[simp] theorem State.raiseFault_acc (s : State) (c : FaultCode) (info : Byte) : (s.raiseFault c info).acc = s.acc := rfl
@[simp] theorem State.raiseFault_ph (s : State) (c : FaultCode) (info : Byte) : (s.raiseFault c info).ph = s.ph := rfl
@[simp] theorem State.raiseFault_tlen (s : State) (c : FaultCode) (info : Byte) : (s.raiseFault c info).tlen = s.tlen := rfl
@[simp] theorem State.raiseFault_txt (s : State) (c : FaultCode) (info : Byte) : (s.raiseFault c info).txt = s.txt := rfl
@[simp] theorem State.raiseFault_ea (s : State) (c : FaultCode) (info : Byte) : (s.raiseFault c info).ea = s.ea := rfl
@[simp] theorem State.raiseFault_pos (s : State) (c : FaultCode) (info : Byte) : (s.raiseFault c info).pos = s.pos := rfl
@[simp] theorem State.raiseFault_tag (s : State) (c : FaultCode) (info : Byte) : (s.raiseFault c info).tag = s.tag := rfl
@[simp] theorem State.raiseFault_done (s : State) (c : FaultCode) (info : Byte) : (s.raiseFault c info).done = false := rfl
@[simp] theorem State.raiseFault_err (s : State) (c : FaultCode) (info : Byte) : (s.raiseFault c info).err = c.code := rfl
@[simp] theorem State.raiseFault_errInfo (s : State) (c : FaultCode) (info : Byte) : (s.raiseFault c info).errInfo = info := rfl
@[simp] theorem State.raiseFault_resp (s : State) (c : FaultCode) (info : Byte) : (s.raiseFault c info).resp = s.resp := rfl
@[simp] theorem State.raiseFault_input (s : State) (c : FaultCode) (info : Byte) : (s.raiseFault c info).input = s.input := rfl

/-! ### `respond` -/

@[simp] theorem State.respond_crc (s : State) (w : Word) : (s.respond w).crc = s.crc := rfl
@[simp] theorem State.respond_acc (s : State) (w : Word) : (s.respond w).acc = s.acc := rfl
@[simp] theorem State.respond_ph (s : State) (w : Word) : (s.respond w).ph = s.ph := rfl
@[simp] theorem State.respond_tlen (s : State) (w : Word) : (s.respond w).tlen = s.tlen := rfl
@[simp] theorem State.respond_txt (s : State) (w : Word) : (s.respond w).txt = s.txt := rfl
@[simp] theorem State.respond_ea (s : State) (w : Word) : (s.respond w).ea = s.ea := rfl
@[simp] theorem State.respond_pos (s : State) (w : Word) : (s.respond w).pos = s.pos := rfl
@[simp] theorem State.respond_tag (s : State) (w : Word) : (s.respond w).tag = s.tag := rfl
@[simp] theorem State.respond_done (s : State) (w : Word) : (s.respond w).done = s.done := rfl
@[simp] theorem State.respond_err (s : State) (w : Word) : (s.respond w).err = s.err := rfl
@[simp] theorem State.respond_errInfo (s : State) (w : Word) : (s.respond w).errInfo = s.errInfo := rfl
@[simp] theorem State.respond_resp (s : State) (w : Word) : (s.respond w).resp = w := rfl
@[simp] theorem State.respond_input (s : State) (w : Word) : (s.respond w).input = s.input := rfl

/-! ### `clearText` -/

@[simp] theorem State.clearText_crc (s : State) : (s.clearText).crc = s.crc := rfl
@[simp] theorem State.clearText_acc (s : State) : (s.clearText).acc = 0#4 := rfl
@[simp] theorem State.clearText_ph (s : State) : (s.clearText).ph = 0#2 := rfl
@[simp] theorem State.clearText_tlen (s : State) : (s.clearText).tlen = 0#6 := rfl
@[simp] theorem State.clearText_txt (s : State) : (s.clearText).txt = [] := rfl
@[simp] theorem State.clearText_ea (s : State) : (s.clearText).ea = s.ea := rfl
@[simp] theorem State.clearText_pos (s : State) : (s.clearText).pos = s.pos := rfl
@[simp] theorem State.clearText_tag (s : State) : (s.clearText).tag = s.tag := rfl
@[simp] theorem State.clearText_done (s : State) : (s.clearText).done = s.done := rfl
@[simp] theorem State.clearText_err (s : State) : (s.clearText).err = s.err := rfl
@[simp] theorem State.clearText_errInfo (s : State) : (s.clearText).errInfo = s.errInfo := rfl
@[simp] theorem State.clearText_resp (s : State) : (s.clearText).resp = s.resp := rfl
@[simp] theorem State.clearText_input (s : State) : (s.clearText).input = s.input := rfl

/-! ### `toReset` -/

@[simp] theorem State.toReset_crc (s : State) : (s.toReset).crc = 0x0000#16 := rfl
@[simp] theorem State.toReset_acc (s : State) : (s.toReset).acc = 0#4 := rfl
@[simp] theorem State.toReset_ph (s : State) : (s.toReset).ph = 0#2 := rfl
@[simp] theorem State.toReset_tlen (s : State) : (s.toReset).tlen = 0#6 := rfl
@[simp] theorem State.toReset_txt (s : State) : (s.toReset).txt = [] := rfl
@[simp] theorem State.toReset_ea (s : State) : (s.toReset).ea = [] := rfl
@[simp] theorem State.toReset_pos (s : State) : (s.toReset).pos = 0#6 := rfl
@[simp] theorem State.toReset_tag (s : State) : (s.toReset).tag = 0x00#8 := rfl
@[simp] theorem State.toReset_done (s : State) : (s.toReset).done = false := rfl
@[simp] theorem State.toReset_err (s : State) : (s.toReset).err = 0#3 := rfl
@[simp] theorem State.toReset_errInfo (s : State) : (s.toReset).errInfo = 0x00#8 := rfl
@[simp] theorem State.toReset_resp (s : State) : (s.toReset).resp = 0x0000#16 := rfl
@[simp] theorem State.toReset_input (s : State) : (s.toReset).input = s.input := rfl

/-! ### The buffers' reads see no field but the buffers -/

theorem State.memRead_congr {s t : State} (hea : t.ea = s.ea) (htxt : t.txt = s.txt) : t.memRead = s.memRead := by
  funext sp a
  cases sp <;> simp [State.memRead, hea, htxt]

theorem State.bytes_congr {s t : State} (h : t.memRead = s.memRead) : t.bytes = s.bytes := by
  funext sp lo n
  simp [State.bytes, h]

@[simp] theorem State.memRead_raiseFault (s : State) (c : FaultCode) (info : Byte) :
    (s.raiseFault c info).memRead = s.memRead := State.memRead_congr rfl rfl

@[simp] theorem State.memRead_respond (s : State) (w : Word) : (s.respond w).memRead = s.memRead :=
  State.memRead_congr rfl rfl

/-- `EA[0]` is hardwired (R31). -/
@[simp] theorem State.memRead_ea_zero (s : State) : s.memRead .ea 0 = styleByte := rfl

@[simp] theorem State.memRead_clearText_txt (s : State) (a : Nat) : s.clearText.memRead .txt a = blankByte := rfl

@[simp] theorem State.memRead_clearText_ea (s : State) (a : Nat) : s.clearText.memRead .ea a = s.memRead .ea a := rfl

@[simp] theorem State.memRead_toReset_txt (s : State) (a : Nat) : s.toReset.memRead .txt a = blankByte := rfl

@[simp] theorem State.bytes_length (s : State) (sp : Space) (lo n : Nat) : (s.bytes sp lo n).length = n := by
  simp [State.bytes]

@[simp] theorem State.bytes_getElem (s : State) (sp : Space) (lo n i : Nat) (h : i < (s.bytes sp lo n).length) :
    (s.bytes sp lo n)[i] = s.memRead sp (lo + i) := by
  simp [State.bytes]

end Sys2Proof.Machine
end

