-- ==== Sys2Proof/Laws/Memory.lean ====
section
/-! SUPPORT. The laws of the two buffers: a read after a write, and the canonical form. The reads' laws hold of every list of
cells, canonical or not. -/

namespace Sys2Proof.Machine

/-! ## A read after a write -/

@[simp] theorem Memory.read_nil (a : Nat) : Memory.read [] a = blankByte := rfl

theorem Memory.read_cons (c : Host.Cell) (m : Memory) (a : Nat) :
    Memory.read (c :: m) a = if c.1 = a then c.2 else Memory.read m a := rfl

/-- An address that is not listed reads blank. -/
theorem Memory.read_unlisted {m : Memory} {a : Nat} (h : ∀ c ∈ m, c.1 ≠ a) : Memory.read m a = blankByte := by
  induction m with
  | nil => rfl
  | cons c m ih =>
    rw [Memory.read_cons, if_neg (h c (by simp))]
    exact ih fun d hd => h d (by simp [hd])

/-- Filtering away the cells of one address changes no other address. -/
theorem Memory.read_filter {m : Memory} {a b : Nat} (h : b ≠ a) :
    Memory.read (m.filter (fun c => c.1 != a)) b = Memory.read m b := by
  induction m with
  | nil => rfl
  | cons c m ih =>
    by_cases hc : c.1 = a
    · have hb : ¬ c.1 = b := by omega
      simp [hc, Memory.read_cons, ih]
      omega
    · simp [hc, Memory.read_cons, ih]

theorem Memory.read_insert {m : Memory} {a : Nat} {v : Byte} (h : ∀ c ∈ m, c.1 ≠ a) (b : Nat) :
    Memory.read (Memory.insert a v m) b = if a = b then v else Memory.read m b := by
  induction m with
  | nil => rfl
  | cons c m ih =>
    have hc : c.1 ≠ a := h c (by simp)
    have ih := ih fun d hd => h d (by simp [hd])
    unfold Memory.insert
    split
    · rfl
    · rw [Memory.read_cons, Memory.read_cons, ih]
      by_cases hab : a = b
      · subst hab; simp [hc]
      · simp [hab]

theorem Memory.filter_ne {m : Memory} {a : Nat} : ∀ c ∈ m.filter (fun c => c.1 != a), c.1 ≠ a := by
  intro c hc
  simpa using (List.mem_filter.mp hc).2

/-- A write is seen at its own address and at no other. -/
theorem Memory.read_write (m : Memory) (a b : Nat) (v : Byte) :
    Memory.read (Memory.write m a v) b = if a = b then v else Memory.read m b := by
  unfold Memory.write
  by_cases hv : v = blankByte
  · simp only [hv, if_true]
    by_cases hab : a = b
    · subst hab; simpa using Memory.read_unlisted Memory.filter_ne
    · simpa [hab] using Memory.read_filter (fun h => hab h.symm)
  · simp only [hv, if_false]
    rw [Memory.read_insert Memory.filter_ne]
    by_cases hab : a = b
    · simp [hab]
    · simpa [hab] using Memory.read_filter (fun h => hab h.symm)

@[simp] theorem Memory.read_write_same (m : Memory) (a : Nat) (v : Byte) : Memory.read (Memory.write m a v) a = v := by
  simp [Memory.read_write]

theorem Memory.read_write_other (m : Memory) {a b : Nat} (v : Byte) (h : a ≠ b) :
    Memory.read (Memory.write m a v) b = Memory.read m b := by
  simp [Memory.read_write, h]

/-! ## The canonical form -/

theorem Memory.rising_weaken {m : Memory} {lo lo' : Nat} (h : lo' ≤ lo) (hm : Memory.rising lo m = true) :
    Memory.rising lo' m = true := by
  cases m with
  | nil => rfl
  | cons c m => simp only [Memory.rising, Bool.and_eq_true, decide_eq_true_eq] at hm ⊢; exact ⟨by omega, hm.2⟩

theorem Memory.le_of_rising {m : Memory} {lo : Nat} (hm : Memory.rising lo m = true) : ∀ c ∈ m, lo ≤ c.1 := by
  induction m generalizing lo with
  | nil => simp
  | cons c m ih =>
    simp only [Memory.rising, Bool.and_eq_true, decide_eq_true_eq] at hm
    intro d hd
    rcases List.mem_cons.mp hd with rfl | hd
    · exact hm.1
    · have := ih hm.2 d hd; omega

theorem Memory.rising_filter {m : Memory} {lo a : Nat} (hm : Memory.rising lo m = true) :
    Memory.rising lo (m.filter (fun c => c.1 != a)) = true := by
  induction m generalizing lo with
  | nil => rfl
  | cons c m ih =>
    simp only [Memory.rising, Bool.and_eq_true, decide_eq_true_eq] at hm
    by_cases hc : c.1 = a
    · simpa [hc] using Memory.rising_weaken (by omega) (ih hm.2)
    · simpa [hc, Memory.rising, hm.1] using ih hm.2

theorem Memory.rising_insert {m : Memory} {lo a : Nat} {v : Byte} (hlo : lo ≤ a) (ha : ∀ c ∈ m, c.1 ≠ a)
    (hm : Memory.rising lo m = true) : Memory.rising lo (Memory.insert a v m) = true := by
  induction m generalizing lo with
  | nil => simp [Memory.insert, Memory.rising, hlo]
  | cons c m ih =>
    simp only [Memory.rising, Bool.and_eq_true, decide_eq_true_eq] at hm
    have hc : c.1 ≠ a := ha c (by simp)
    unfold Memory.insert
    split
    · simp only [Memory.rising, Bool.and_eq_true, decide_eq_true_eq]; exact ⟨hlo, by omega, hm.2⟩
    · simp only [Memory.rising, Bool.and_eq_true, decide_eq_true_eq]
      exact ⟨hm.1, ih (by omega) (fun d hd => ha d (by simp [hd])) hm.2⟩

theorem Memory.mem_insert {m : Memory} {a : Nat} {v : Byte} {c : Host.Cell} :
    c ∈ Memory.insert a v m ↔ c = (a, v) ∨ c ∈ m := by
  induction m with
  | nil => simp [Memory.insert]
  | cons d m ih =>
    unfold Memory.insert
    split
    · simp
    · simp [ih]; tauto

theorem Memory.wf_iff {sp : Space} {m : Memory} :
    Memory.wf sp m = true ↔
      Memory.rising 0 m = true ∧ ∀ c ∈ m, sp.stores c.1 = true ∧ c.2 ≠ blankByte := by
  simp [Memory.wf]

@[simp] theorem Memory.wf_nil (sp : Space) : Memory.wf sp [] = true := rfl

/-- A write to an address the space stores keeps the canonical form. -/
theorem Memory.wf_write {sp : Space} {m : Memory} {a : Nat} {v : Byte} (ha : sp.stores a = true)
    (hm : Memory.wf sp m = true) : Memory.wf sp (Memory.write m a v) = true := by
  obtain ⟨hr, hc⟩ := Memory.wf_iff.mp hm
  have hf := Memory.rising_filter (a := a) hr
  refine Memory.wf_iff.mpr ?_
  unfold Memory.write
  by_cases hv : v = blankByte
  · simp only [hv, if_true]
    exact ⟨hf, fun c hcm => hc c (List.mem_filter.mp hcm).1⟩
  · simp only [hv, if_false]
    refine ⟨Memory.rising_insert (Nat.zero_le _) Memory.filter_ne hf, fun c hcm => ?_⟩
    rcases Memory.mem_insert.mp hcm with rfl | hcm
    · exact ⟨ha, hv⟩
    · exact hc c (List.mem_filter.mp hcm).1

/-- In the canonical form the listed cells are exactly the ones that do not read blank. -/
theorem Memory.mem_iff_read {m : Memory} {lo : Nat} (hr : Memory.rising lo m = true) (hb : ∀ c ∈ m, c.2 ≠ blankByte)
    (c : Host.Cell) : c ∈ m ↔ Memory.read m c.1 = c.2 ∧ c.2 ≠ blankByte := by
  induction m generalizing lo with
  | nil => simp [eq_comm]
  | cons d m ih =>
    simp only [Memory.rising, Bool.and_eq_true, decide_eq_true_eq] at hr
    have ih := ih hr.2 (fun e he => hb e (by simp [he]))
    have hd := hb d (by simp)
    have hge := Memory.le_of_rising hr.2
    rw [List.mem_cons, Memory.read_cons]
    by_cases h : d.1 = c.1
    · rw [if_pos h]
      constructor
      · rintro (rfl | hm)
        · exact ⟨rfl, hd⟩
        · have := hge c hm; omega
      · rintro ⟨h2, -⟩; exact .inl (Prod.ext h.symm h2.symm)
    · rw [if_neg h, ← ih]
      constructor
      · rintro (rfl | hm)
        · exact absurd rfl h
        · exact hm
      · exact .inr

/-- Equal contents are equal lists: two canonical memories that read alike are one. -/
theorem Memory.ext_read {m m' : Memory} {lo lo' : Nat} (hr : Memory.rising lo m = true) (hr' : Memory.rising lo' m' = true)
    (hb : ∀ c ∈ m, c.2 ≠ blankByte) (hb' : ∀ c ∈ m', c.2 ≠ blankByte)
    (h : ∀ a, Memory.read m a = Memory.read m' a) : m = m' := by
  induction m generalizing m' lo lo' with
  | nil =>
    cases m' with
    | nil => rfl
    | cons d m' =>
      have := (Memory.mem_iff_read hr' hb' d).mp (by simp)
      have hd := h d.1
      simp [this.1] at hd
      exact absurd hd.symm this.2
  | cons c m ih =>
    cases m' with
    | nil =>
      have := (Memory.mem_iff_read hr hb c).mp (by simp)
      have hd := h c.1
      rw [this.1] at hd
      exact absurd hd this.2
    | cons d m' =>
      have hcm : c ∈ d :: m' := (Memory.mem_iff_read hr' hb' c).mpr
        ⟨by rw [← h]; exact ((Memory.mem_iff_read hr hb c).mp (by simp)).1, hb c (by simp)⟩
      have hdm : d ∈ c :: m := (Memory.mem_iff_read hr hb d).mpr
        ⟨by rw [h]; exact ((Memory.mem_iff_read hr' hb' d).mp (by simp)).1, hb' d (by simp)⟩
      simp only [Memory.rising, Bool.and_eq_true, decide_eq_true_eq] at hr hr'
      have hcd : c = d := by
        rcases List.mem_cons.mp hcm with e | e
        · exact e
        · rcases List.mem_cons.mp hdm with e' | e'
          · exact e'.symm
          · have := Memory.le_of_rising hr.2 d e'
            have := Memory.le_of_rising hr'.2 c e
            omega
      subst hcd
      congr 1
      refine ih hr.2 hr'.2 (fun e he => hb e (by simp [he])) (fun e he => hb' e (by simp [he])) fun a => ?_
      have ha := h a
      rw [Memory.read_cons, Memory.read_cons] at ha
      by_cases hca : c.1 = a
      · have n1 : ∀ e ∈ m, e.1 ≠ a := fun e he => by have := Memory.le_of_rising hr.2 e he; omega
        have n2 : ∀ e ∈ m', e.1 ≠ a := fun e he => by have := Memory.le_of_rising hr'.2 e he; omega
        rw [Memory.read_unlisted n1, Memory.read_unlisted n2]
      · simpa [hca] using ha

/-! ## The state's reads and writes -/

/-- A write to a space is seen at its own address, unless that is the hardwired cell, and nowhere else. -/
theorem State.memRead_store (s : State) (sp sp' : Space) (a b : Nat) (v : Byte) :
    (s.store sp a v).memRead sp' b =
      if sp = sp' ∧ a = b ∧ ¬ (sp = .ea ∧ a = 0) then v else s.memRead sp' b := by
  cases sp with
  | txt => cases sp' <;> simp [State.store, State.memRead, Memory.read_write]
  | ea =>
    by_cases ha : a = 0
    · simp [State.store, ha]
    · cases sp' with
      | txt => simp [State.store, State.memRead, ha]
      | ea =>
        by_cases hb : b = 0
        · subst hb; simp [State.memRead, ha]
        · simp [State.store, State.memRead, ha, hb, Memory.read_write]

/-- Everything `memWrite` can do: it stores, at an address the space has, or it faults. -/
theorem State.memWrite_ok_iff {s t : State} {sp : Space} {a : Nat} {v : Byte} :
    s.memWrite sp a v = .ok t ↔ a < sp.size ∧ t = s.store sp a v := by
  unfold State.memWrite
  split <;> simp_all [eq_comm]

theorem State.memWrite_of_lt (s : State) {sp : Space} {a : Nat} (v : Byte) (h : a < sp.size) :
    s.memWrite sp a v = .ok (s.store sp a v) := if_pos h

theorem State.store_txt (s : State) (a : Nat) (v : Byte) : s.store .txt a v = { s with txt := s.txt.write a v } := rfl

theorem State.store_ea (s : State) {a : Nat} (v : Byte) (h : a ≠ 0) :
    s.store .ea a v = { s with ea := s.ea.write a v } := by
  simp [State.store, h]

/-- `memWrite` keeps both canonical forms. -/
theorem State.memWrite_wf {s t : State} {sp : Space} {a : Nat} {v : Byte} (h : s.memWrite sp a v = .ok t)
    (hea : Memory.wf .ea s.ea = true) (htxt : Memory.wf .txt s.txt = true) :
    Memory.wf .ea t.ea = true ∧ Memory.wf .txt t.txt = true := by
  obtain ⟨ha, rfl⟩ := State.memWrite_ok_iff.mp h
  cases sp with
  | txt => exact ⟨hea, Memory.wf_write (decide_eq_true ha) htxt⟩
  | ea =>
    by_cases h0 : a = 0
    · simpa [State.store, h0] using ⟨hea, htxt⟩
    · rw [State.store_ea s v h0]
      exact ⟨Memory.wf_write (decide_eq_true ⟨Nat.pos_of_ne_zero h0, ha⟩) hea, htxt⟩

/-- The reset state's two spaces are in canonical form. -/
theorem State.reset_wf : Memory.wf .ea State.reset.ea = true ∧ Memory.wf .txt State.reset.txt = true := ⟨rfl, rfl⟩

end Sys2Proof.Machine
end

