-- ==== Sys2Proof/Laws/Ops.lean ====
section
/-! SUPPORT. What each shared operation can do, said once: the gate, fault entry, appending text, the units' helpers, and one
step. -/

namespace Sys2Proof.Machine

/-! ## Outcomes and the gate -/

@[simp] theorem settle_ok (t : State) : settle (.ok t) = .next t := rfl

@[simp] theorem settle_error (e : Fault) : settle (.error e) = .fault e := rfl

theorem settle_next_iff {r : Except Fault State} {t : State} : settle r = .next t ↔ r = .ok t := by
  cases r <;> simp [settle]

theorem settle_not_refused {r : Except Fault State} {x : Refusal} : settle r ≠ .refused x := by
  cases r <;> simp [settle]

theorem State.inFaultState_iff (s : State) : s.inFaultState = true ↔ s.err ≠ 0#3 := by
  simp [State.inFaultState]

theorem State.gate_running {s : State} (h : s.err = 0#3) (r : Step) : s.gate r = r :=
  if_neg (by simp [State.inFaultState, h])

theorem State.gate_faulted {s : State} (h : s.err ≠ 0#3) (r : Step) : s.gate r = .next s :=
  if_pos (s.inFaultState_iff.mpr h)

/-- Everything the gate can do: it discards in the fault state, and is not there outside it. -/
theorem State.gate_next_iff {s t : State} {r : Step} :
    s.gate r = .next t ↔ (s.err ≠ 0#3 ∧ t = s) ∨ (s.err = 0#3 ∧ r = .next t) := by
  by_cases h : s.err = 0#3
  · simp [State.gate_running h, h]
  · rw [State.gate_faulted h]
    simp [h, eq_comm (a := t)]

theorem State.illegalCommand_next_iff {s t : State} {op : Byte} :
    s.illegalCommand op = .next t ↔
      (s.err ≠ 0#3 ∧ t = s) ∨ (s.err = 0#3 ∧ t = s.raiseFault .illegalCommand op) := by
  simp [State.illegalCommand, State.gate_next_iff, eq_comm (a := t)]

/-! ## Appending text -/

/-- Everything `emit` can do: one character at `TLEN`, or a fault past the space's end. -/
theorem emit_eq (i : BitVec 6) (s : State) :
    emit i s =
      if s.tlen.toNat < 48 then
        .ok { s with txt := s.txt.write s.tlen.toNat (alpha i), tlen := s.tlen + 1#6 }
      else .error (.noSuchAddress .txt s.tlen.toNat) := by
  unfold emit State.memWrite
  by_cases h : s.tlen.toNat < 48
  · rw [if_pos h, if_pos (show s.tlen.toNat < Space.txt.size from h)]; rfl
  · rw [if_neg h, if_neg (show ¬ s.tlen.toNat < Space.txt.size from h)]; rfl

theorem emit_ok {i : BitVec 6} {s : State} (h : s.tlen.toNat < 48) :
    emit i s = .ok { s with txt := s.txt.write s.tlen.toNat (alpha i), tlen := s.tlen + 1#6 } := by
  rw [emit_eq, if_pos h]

theorem emit_ok_iff {i : BitVec 6} {s t : State} :
    emit i s = .ok t ↔
      s.tlen.toNat < 48 ∧ t = { s with txt := s.txt.write s.tlen.toNat (alpha i), tlen := s.tlen + 1#6 } := by
  rw [emit_eq]
  split <;> simp_all [eq_comm]

/-- `TLEN + 1` does not wrap while there is room (R117). -/
theorem tlen_succ {v : BitVec 6} (h : v.toNat < 48) : (v + 1#6).toNat = v.toNat + 1 := by
  rw [BitVec.toNat_add]
  simp
  omega

theorem b64Push_phase0 {b : Byte} {s : State} (hp : s.ph = 0#2) (h : s.tlen.toNat < 48) :
    b64Push b s = .ok
      { s with txt := s.txt.write s.tlen.toNat (alpha (sextet0 b)), tlen := s.tlen + 1#6,
               acc := 0b00#2 ++ b.extractLsb 1 0, ph := 1#2 } := by
  rw [b64Push, if_pos hp, emit_ok h]
  rfl

theorem b64Push_phase1 {b : Byte} {s : State} (hp : s.ph = 1#2) (h : s.tlen.toNat < 48) :
    b64Push b s = .ok
      { s with txt := s.txt.write s.tlen.toNat (alpha (s.acc.extractLsb 1 0 ++ b.extractLsb 7 4)), tlen := s.tlen + 1#6,
               acc := b.extractLsb 3 0, ph := 2#2 } := by
  rw [b64Push, if_neg (by simp [hp]), if_pos hp, emit_ok h]
  rfl

theorem b64Push_phase2 {b : Byte} {s : State} (hp : s.ph = 2#2) (h : s.tlen.toNat < 47) :
    b64Push b s = .ok
      { s with txt := (s.txt.write s.tlen.toNat (alpha (s.acc.extractLsb 3 0 ++ b.extractLsb 7 6))).write
                 (s.tlen.toNat + 1) (alpha (sextet3 b)),
               tlen := s.tlen + 1#6 + 1#6, acc := 0#4, ph := 0#2 } := by
  have h1 : (s.tlen + 1#6).toNat = s.tlen.toNat + 1 := tlen_succ (by omega)
  rw [b64Push, if_neg (by simp [hp]), if_neg (by simp [hp]), emit_ok (by omega)]
  simp only [bind, Except.bind]
  rw [emit_ok (by simp only [h1]; omega), ← h1]
  rfl

/-- The characters a run of bytes emits from a phase and the bits waiting there, in order. -/
def streamText (ph : BitVec 2) (acc : BitVec 4) : List Byte → List Byte
  | [] => []
  | b :: bs =>
    if ph = 0#2 then alpha (sextet0 b) :: streamText 1#2 (0b00#2 ++ b.extractLsb 1 0) bs
    else if ph = 1#2 then alpha (acc.extractLsb 1 0 ++ b.extractLsb 7 4) :: streamText 2#2 (b.extractLsb 3 0) bs
    else alpha (acc.extractLsb 3 0 ++ b.extractLsb 7 6) :: alpha (sextet3 b) :: streamText 0#2 0#4 bs

/-- The phase a run of bytes ends in. -/
def streamPh (ph : BitVec 2) : List Byte → BitVec 2
  | [] => ph
  | _ :: bs => streamPh (if ph = 0#2 then 1#2 else if ph = 1#2 then 2#2 else 0#2) bs

/-- The bits a run of bytes leaves waiting. -/
def streamAcc (ph : BitVec 2) (acc : BitVec 4) : List Byte → BitVec 4
  | [] => acc
  | b :: bs =>
    if ph = 0#2 then streamAcc 1#2 (0b00#2 ++ b.extractLsb 1 0) bs
    else if ph = 1#2 then streamAcc 2#2 (b.extractLsb 3 0) bs
    else streamAcc 0#2 0#4 bs

/-- Characters written one after another from an address. -/
def Memory.writeAll (m : Memory) (a : Nat) : List Byte → Memory
  | [] => m
  | c :: cs => (m.write a c).writeAll (a + 1) cs

theorem Memory.read_writeAll (m : Memory) (a b : Nat) (cs : List Byte) :
    (m.writeAll a cs).read b = if h : a ≤ b ∧ b - a < cs.length then cs[b - a]'h.2 else m.read b := by
  induction cs generalizing m a with
  | nil => simp [Memory.writeAll]
  | cons c cs ih =>
    rw [Memory.writeAll, ih, Memory.read_write]
    by_cases hb : a + 1 ≤ b ∧ b - (a + 1) < cs.length
    · have e : b - a = (b - (a + 1)) + 1 := by omega
      rw [dif_pos hb, dif_pos ⟨by omega, by simp; omega⟩]
      simp [e]
    · rw [dif_neg hb]
      by_cases hab : a = b
      · subst hab; simp
      · rw [if_neg hab, dif_neg (by simp; omega)]

theorem Memory.wf_writeAll {m : Memory} {a : Nat} {cs : List Byte} (hm : Memory.wf .txt m = true)
    (h : a + cs.length ≤ 48) : Memory.wf .txt (m.writeAll a cs) = true := by
  induction cs generalizing m a with
  | nil => exact hm
  | cons c cs ih =>
    simp only [List.length_cons] at h
    exact ih (Memory.wf_write (decide_eq_true (show a < 48 by omega)) hm) (by omega)

theorem nchars_step (ph k : Nat) : nchars ph (k + 1) = (if ph = 2 then 2 else 1) + nchars ((ph + 1) % 3) k := rfl

/-- The three legal phases. -/
theorem phase_cases {ph : BitVec 2} (h : ph ≠ 3#2) : ph = 0#2 ∨ ph = 1#2 ∨ ph = 2#2 := by
  revert h; revert ph; decide

theorem streamPh_legal {ph : BitVec 2} (h : ph ≠ 3#2) (bs : List Byte) : streamPh ph bs ≠ 3#2 := by
  induction bs generalizing ph with
  | nil => exact h
  | cons b bs ih => rcases phase_cases h with rfl | rfl | rfl <;> exact ih (by decide)

theorem streamPh_toNat {ph : BitVec 2} (h : ph ≠ 3#2) (bs : List Byte) :
    (streamPh ph bs).toNat = (ph.toNat + bs.length) % 3 := by
  induction bs generalizing ph with
  | nil => rcases phase_cases h with rfl | rfl | rfl <;> rfl
  | cons b bs ih =>
    rcases phase_cases h with rfl | rfl | rfl
    · rw [streamPh, if_pos rfl, ih (by decide)]; simp; omega
    · rw [streamPh, if_neg (by decide), if_pos rfl, ih (by decide)]; simp; omega
    · rw [streamPh, if_neg (by decide), if_neg (by decide), ih (by decide)]; simp; omega

/-- `nchars` counts what a run of bytes emits (R134). -/
theorem streamText_length {ph : BitVec 2} (h : ph ≠ 3#2) (acc : BitVec 4) (bs : List Byte) :
    (streamText ph acc bs).length = nchars ph.toNat bs.length := by
  induction bs generalizing ph acc with
  | nil => rfl
  | cons b bs ih =>
    rcases phase_cases h with rfl | rfl | rfl
    · rw [streamText, if_pos rfl, List.length_cons, ih (by decide), List.length_cons, nchars_step]
      simp; omega
    · rw [streamText, if_neg (by decide), if_pos rfl, List.length_cons, ih (by decide), List.length_cons, nchars_step]
      simp; omega
    · rw [streamText, if_neg (by decide), if_neg (by decide), List.length_cons, List.length_cons, ih (by decide),
        List.length_cons, nchars_step]
      simp; omega

/-- `b64_push` of a run of bytes, whole: while the characters fit, it writes exactly them and moves `TLEN`, `PH` and `ACC`. -/
theorem b64PushAll_ok {bs : List Byte} {s : State} (hp : s.ph ≠ 3#2)
    (h : s.tlen.toNat + nchars s.ph.toNat bs.length ≤ 48) :
    b64PushAll bs s = .ok
      { s with txt := s.txt.writeAll s.tlen.toNat (streamText s.ph s.acc bs),
               tlen := s.tlen + BitVec.ofNat 6 (nchars s.ph.toNat bs.length),
               ph := streamPh s.ph bs, acc := streamAcc s.ph s.acc bs } := by
  induction bs generalizing s with
  | nil => simp [b64PushAll, Memory.writeAll, streamText, streamPh, streamAcc, nchars]
  | cons b bs ih =>
    rw [List.length_cons, nchars_step] at h ⊢
    rcases phase_cases hp with e | e | e
    · have hn : nchars s.ph.toNat (bs.length + 1) = 1 + nchars 1 bs.length := by rw [e]; rfl
      rw [← nchars_step, hn] at h
      rw [← nchars_step, hn]
      have h1 := tlen_succ (v := s.tlen) (by omega)
      rw [b64PushAll, b64Push_phase0 e (by omega)]
      simp only [bind, Except.bind]
      rw [ih (by simp) (by simp only [h1]; simp; omega)]
      simp only [h1]
      simp [streamText, streamPh, streamAcc, e, Memory.writeAll, BitVec.ofNat_add, BitVec.add_assoc]
    · have hn : nchars s.ph.toNat (bs.length + 1) = 1 + nchars 2 bs.length := by rw [e]; rfl
      rw [← nchars_step, hn] at h
      rw [← nchars_step, hn]
      have h1 := tlen_succ (v := s.tlen) (by omega)
      rw [b64PushAll, b64Push_phase1 e (by omega)]
      simp only [bind, Except.bind]
      rw [ih (by simp) (by simp only [h1]; simp; omega)]
      simp only [h1]
      simp [streamText, streamPh, streamAcc, e, Memory.writeAll, BitVec.ofNat_add, BitVec.add_assoc]
    · have hn : nchars s.ph.toNat (bs.length + 1) = 2 + nchars 0 bs.length := by rw [e]; rfl
      rw [← nchars_step, hn] at h
      rw [← nchars_step, hn]
      have h1 := tlen_succ (v := s.tlen) (by omega)
      have h2 := tlen_succ (v := s.tlen + 1#6) (by omega)
      rw [b64PushAll, b64Push_phase2 e (by omega)]
      simp only [bind, Except.bind]
      rw [ih (by simp) (by simp only [h1, h2]; simp; omega)]
      simp only [h1, h2]
      simp [streamText, streamPh, streamAcc, e, Memory.writeAll, BitVec.ofNat_add, BitVec.add_assoc]

/-- The counts the commands use (R134). -/
theorem nchars_one (ph : Nat) : nchars ph 1 = if ph = 2 then 2 else 1 := rfl

theorem nchars_two {ph : BitVec 2} (h : ph ≠ 3#2) : nchars ph.toNat 2 = if ph = 0#2 then 2 else 3 := by
  rcases phase_cases h with rfl | rfl | rfl <;> rfl

/-- Everything the flush of the last group can do while a character fits (R137). -/
theorem b64Flush_ok {s : State} (h : s.ph = 0#2 ∨ s.ph = 3#2 ∨ s.tlen.toNat < 48) :
    b64Flush s = .ok
      (if s.ph = 1#2 then
        { s with txt := s.txt.write s.tlen.toNat (alpha (s.acc.extractLsb 1 0 ++ 0b0000#4)), tlen := s.tlen + 1#6,
                 acc := 0#4, ph := 0#2 }
       else if s.ph = 2#2 then
        { s with txt := s.txt.write s.tlen.toNat (alpha (s.acc.extractLsb 3 0 ++ 0b00#2)), tlen := s.tlen + 1#6,
                 acc := 0#4, ph := 0#2 }
       else { s with acc := 0#4, ph := 0#2 }) := by
  unfold b64Flush
  by_cases h1 : s.ph = 1#2
  · have ht : s.tlen.toNat < 48 := by rcases h with h | h | h <;> simp_all
    rw [if_pos h1, if_pos h1, emit_ok ht]; rfl
  · by_cases h2 : s.ph = 2#2
    · have ht : s.tlen.toNat < 48 := by rcases h with h | h | h <;> simp_all
      rw [if_neg h1, if_pos h2, if_neg h1, if_pos h2, emit_ok ht]; rfl
    · rw [if_neg h1, if_neg h2, if_neg h1, if_neg h2]; rfl

/-- Everything a command that appends can do: nothing in the fault state; the overflow fault; or its work. -/
theorem State.appending_next_iff {s t : State} {n : Nat} {work : State → Except Fault State} :
    s.appending n work = .next t ↔
      (s.err ≠ 0#3 ∧ t = s) ∨
      (s.err = 0#3 ∧ 48 < s.tlen.toNat + n ∧ t = s.raiseFault .txtOverflow (s.tlen.setWidth 8)) ∨
      (s.err = 0#3 ∧ s.tlen.toNat + n ≤ 48 ∧ work { s with done := false } = .ok t) := by
  unfold State.appending State.textOverflows
  rw [State.gate_next_iff]
  by_cases hn : 48 < s.tlen.toNat + n
  · have h2 : ¬ s.tlen.toNat + n ≤ 48 := by omega
    simp [hn, h2, eq_comm (a := t)]
  · have h2 : s.tlen.toNat + n ≤ 48 := by omega
    simp [hn, h2, settle_next_iff]

/-! ## Operands -/

/-- The numbers that select a status word are 0 to 3 (R40). -/
theorem statusNumber_none_iff (imm : Byte) : statusNumber imm = none ↔ 4 ≤ imm.toNat := by
  unfold statusNumber
  split <;> simp_all
  omega

theorem bufferAddress_eq (sp : Space) (imm : Byte) :
    bufferAddress sp imm = if imm.toNat < sp.size then some imm.toNat else none := rfl

/-! ## The address unit -/

/-- `POS` after one more byte (R151). -/
theorem nextPos_toNat (p : BitVec 6) : (nextPos p).toNat = min (p.toNat + 1) 34 := by
  have h : min (p.toNat + 1) rawMin < 2 ^ 6 := lt_of_le_of_lt (min_le_right _ _) (by decide)
  rw [nextPos, BitVec.toNat_ofNat, Nat.mod_eq_of_lt h]
  rfl

/-- Receiving a byte always goes through: the address is 1 to 33 where there is a write (R54). -/
theorem receiveByte_ok (b : Byte) (s : State) :
    receiveByte b s = .ok
      (if s.pos = 0#6 then { s with tag := b }
       else if s.pos.toNat ≤ 33 then { s with ea := s.ea.write s.pos.toNat b } else s) := by
  unfold receiveByte
  by_cases h0 : s.pos = 0#6
  · simp [h0]
  · have hne : s.pos.toNat ≠ 0 := fun h => h0 (BitVec.eq_of_toNat_eq (by simpa using h))
    by_cases h33 : s.pos.toNat ≤ 33
    · simp only [h0, h33, if_true, if_false]
      exact State.memWrite_ok_iff.mpr ⟨by simp [Space.size]; omega, (State.store_ea s b hne).symm⟩
    · simp only [h0, h33, if_false]

/-- What is left to emit at the end of a message (R137). -/
def flushText (ph : BitVec 2) (acc : BitVec 4) : List Byte :=
  if ph = 1#2 then [alpha (acc.extractLsb 1 0 ++ 0b0000#4)]
  else if ph = 2#2 then [alpha (acc.extractLsb 3 0 ++ 0b00#2)]
  else []

theorem acc_low (x : BitVec 2) : (0b00#2 ++ x).extractLsb 1 0 = x := by revert x; decide

theorem acc_whole (x : BitVec 4) : x.extractLsb 3 0 = x := by revert x; decide

/-- The streamed characters of a message and the last partial one are its text (R138). -/
theorem streamText_b64url (bs : List Byte) :
    streamText 0#2 0#4 bs ++ flushText (streamPh 0#2 bs) (streamAcc 0#2 0#4 bs) = b64url bs := by
  induction bs using b64url.induct with
  | case1 => rfl
  | case2 b0 => simp [streamText, streamPh, streamAcc, flushText, b64url, acc_low]
  | case3 b0 b1 => simp [streamText, streamPh, streamAcc, flushText, b64url, acc_low, acc_whole, sextet1]
  | case4 b0 b1 b2 rest ih =>
    rw [b64url, ← ih]
    simp [streamText, streamPh, streamAcc, acc_low, acc_whole, sextet1, sextet2]

/-- A message of whole 3-byte groups leaves nothing waiting. -/
theorem stream_whole_groups {bs : List Byte} (h : bs.length % 3 = 0) :
    streamText 0#2 0#4 bs = b64url bs ∧ streamPh 0#2 bs = 0#2 ∧ streamAcc 0#2 0#4 bs = 0#4 := by
  induction bs using b64url.induct with
  | case1 => exact ⟨rfl, rfl, rfl⟩
  | case2 b0 => simp at h
  | case3 b0 b1 => simp at h
  | case4 b0 b1 b2 rest ih =>
    obtain ⟨h1, h2, h3⟩ := ih (by simp at h; omega)
    refine ⟨?_, ?_, ?_⟩
    · rw [b64url, ← h1]
      simp [streamText, acc_low, acc_whole, sextet1, sextet2]
    · simpa [streamPh] using h2
    · simpa [streamAcc] using h3

/-- `EA[0..35]` once the checksum stands in its two cells: the EncodedAddress of `EA[0..33]` (R51, R55). -/
theorem State.bytes_with_checksum {s t : State} (k : Word)
    (ht : t.ea = (s.ea.write 34 (highByte k)).write 35 (lowByte k)) :
    t.bytes .ea 0 36 = s.bytes .ea 0 34 ++ [highByte k, lowByte k] := by
  apply List.ext_getElem (by simp)
  intro i h1 h2
  simp only [State.bytes_length] at h1
  rw [State.bytes_getElem, Nat.zero_add]
  by_cases hi : i < 34
  · rw [List.getElem_append_left (by simpa using hi), State.bytes_getElem, Nat.zero_add]
    by_cases h0 : i = 0
    · subst h0; simp
    · simp only [State.memRead, h0, if_false, ht]
      rw [Memory.read_write_other _ _ (by omega), Memory.read_write_other _ _ (by omega)]
  · obtain rfl | rfl : i = 34 ∨ i = 35 := by omega
    · simp [State.memRead, ht, Memory.read_write]
    · simp [State.memRead, ht]

/-- The accepted record, whole (R152): from here nothing can fail. -/
theorem buildAddress_ok (s : State) :
    buildAddress s = .ok
      { s with
        crc := crcSeq (s.bytes .ea 0 34)
        ea := (s.ea.write 34 (highByte (crcSeq (s.bytes .ea 0 34)))).write 35 (lowByte (crcSeq (s.bytes .ea 0 34)))
        txt := Memory.writeAll [] 0 (b64url (withChecksum (s.bytes .ea 0 34)))
        tlen := 48#6, ph := 0#2, acc := 0#4, pos := 0#6, done := true } := by
  obtain ⟨g1, g2, g3⟩ := stream_whole_groups (bs := withChecksum (s.bytes .ea 0 34)) (by simp [withChecksum])
  have hlen : (withChecksum (s.bytes .ea 0 34)).length = 36 := by simp [withChecksum]
  have hn : nchars 0 36 = 48 := by decide
  have hw : s.bytes .ea 0 34 ++ [highByte (crcSeq (s.bytes .ea 0 34)), lowByte (crcSeq (s.bytes .ea 0 34))] =
      withChecksum (s.bytes .ea 0 34) := rfl
  unfold buildAddress
  simp only [eaLen, canonLen, bind, Except.bind]
  generalize crcSeq (s.bytes .ea 0 34) = k at hw ⊢
  rw [State.memWrite_of_lt _ _ (by decide)]
  simp only []
  rw [State.memWrite_of_lt _ _ (by decide)]
  simp only [State.store_ea _ _ (show (34 : Nat) ≠ 0 by decide), State.store_ea _ _ (show (35 : Nat) ≠ 0 by decide)]
  rw [State.bytes_with_checksum (s := s) k rfl, hw, b64PushAll_ok (by simp) (by simp [hlen, hn])]
  simp [hlen, hn, g1, g2, g3, pure, Except.pure]

/-! ## One step -/

theorem State.nextEvent_cons {s : State} {e : HostEvent} {rest : List HostEvent} (h : s.input = e :: rest) :
    s.nextEvent = some (e, { s with input := rest }) := by
  simp [State.nextEvent, h]

/-- Everything a step can do: idle, reset, a command, or an illegal word. -/
theorem step_cases (s : State) :
    (s.input = [] ∧ step s = .next s) ∨
    (∃ rest, s.input = .reset :: rest ∧ step s = .next ({ s with input := rest } : State).toReset) ∨
    (∃ w rest i, s.input = .command w :: rest ∧ decode w = .ok i ∧ step s = exec i { s with input := rest }) ∨
    (∃ w rest e, s.input = .command w :: rest ∧ decode w = .error e ∧
      step s = ({ s with input := rest } : State).illegalCommand (opField w)) := by
  unfold step
  rcases h : s.input with _ | ⟨_ | _, rest⟩
  · simp [State.nextEvent, h]
  · rename_i w
    rw [State.nextEvent_cons h]
    cases hd : decode w with
    | ok i => exact .inr (.inr (.inl ⟨w, rest, i, rfl, hd, by simp [hd]⟩))
    | error e => exact .inr (.inr (.inr ⟨w, rest, e, rfl, hd, by simp [hd]⟩))
  · rw [State.nextEvent_cons h]
    exact .inr (.inl ⟨rest, rfl, rfl⟩)

/-! ## Runs -/

theorem core_run_next {n : Nat} {s t : State} (h : step s = .next t) :
    Sys2Proof.core.run (n + 1) s = Sys2Proof.core.run n t := by
  have h : Sys2Proof.core.step s = .next t := h
  simp [Host.Core.run, h]

/-- `run` is the host's run of the machine. -/
theorem run_eq_core (n : Nat) (s : State) : run n s = Sys2Proof.core.run n s := by
  induction n generalizing s with
  | zero => rfl
  | succ n ih =>
    rw [run]
    cases h : step s with
    | next t => exact (ih t).trans (core_run_next h).symm
    | fault e =>
      have h : Sys2Proof.core.step s = .fault e := h
      simp only [Host.Core.run, h]
      rfl
    | refused r =>
      have h : Sys2Proof.core.step s = .refused r := h
      simp only [Host.Core.run, h]
      rfl

theorem run_succ {n : Nat} {s t : State} (h : step s = .next t) : run (n + 1) s = run n t := by
  rw [run, h]

theorem run_add (m n : Nat) (s : State) :
    run (m + n) s = match run m s with | .next t => run n t | .fault e => .fault e | .refused r => .refused r := by
  induction m generalizing s with
  | zero => simp [run]
  | succ m ih =>
    rw [Nat.succ_add, run, run]
    cases step s <;> simp [ih]

end Sys2Proof.Machine
end

