-- ==== Sys2Proof/Laws/PerInstr.lean ====
section
/-! SUPPORT. Facts about every command as syntax, one lemma per constructor. -/

namespace Sys2Proof

theorem opField_commandOf (op imm : Byte) : opField (commandOf op imm) = op := by
  apply BitVec.eq_of_getLsbD_eq
  intro i hi
  have h := BitVec.getLsbD_append (x := op) (y := imm) (i := 8 + i)
  have : i < 8 := hi
  unfold opField commandOf
  rw [BitVec.getLsbD_extractLsb]
  exact Eq.trans (congrArg (decide (i < 15 - 8 + 1) && ·) h) (by simp [this])

theorem immField_commandOf (op imm : Byte) : immField (commandOf op imm) = imm := by
  apply BitVec.eq_of_getLsbD_eq
  intro i hi
  have h := BitVec.getLsbD_append (x := op) (y := imm) (i := 0 + i)
  have : i < 8 := hi
  unfold immField commandOf
  rw [BitVec.getLsbD_extractLsb]
  exact Eq.trans (congrArg (decide (i < 7 - 0 + 1) && ·) h) (by simp [this])

theorem commandOf_fields (w : Word) : commandOf (opField w) (immField w) = w := by
  apply BitVec.eq_of_getLsbD_eq
  intro i hi
  unfold opField immField commandOf
  simp only [BitVec.getLsbD_append, BitVec.getLsbD_extractLsb]
  by_cases h : i < 8
  · simp [h]
  · have h1 : i - 8 < 8 := by omega
    have h2 : 8 + (i - 8) = i := by omega
    simp [h, h1, h2]

/-- The decoder by the two fields. -/
theorem decode_commandOf (op imm : Byte) :
    decode (commandOf op imm) =
      match op.toNat with
      | 0x01 => decodeNoOperand (commandOf op imm) .init
      | 0x10 => decodeNoOperand (commandOf op imm) .crcClr
      | 0x11 => .ok (.crcUpd imm)
      | 0x12 => decodeNoOperand (commandOf op imm) .crcEmit
      | 0x20 => decodeNoOperand (commandOf op imm) .b64Clr
      | 0x21 => .ok (.b64Push imm)
      | 0x22 => decodeNoOperand (commandOf op imm) .b64End
      | 0x31 => .ok (.adrByte imm)
      | 0x32 => decodeNoOperand (commandOf op imm) .adrEnd
      | 0x80 => decodeNumber (commandOf op imm) csrCount .rdr
      | 0x81 => decodeNumber (commandOf op imm) eaLen .rde
      | 0x82 => decodeNumber (commandOf op imm) txtCap .rdt
      | _ => .error (.undefinedOpcode op) := by
  have hop := opField_commandOf op imm
  have himm := immField_commandOf op imm
  generalize commandOf op imm = w at *
  subst hop himm
  rfl

theorem decodeNoOperand_ok_iff {w : Word} {i j : Instr} :
    decodeNoOperand w i = .ok j ↔ immField w = 0#8 ∧ j = i := by
  unfold decodeNoOperand
  split <;> simp_all [eq_comm]

theorem decodeNumber_ok_iff {w : Word} {n : Nat} {i : Byte → Instr} {j : Instr} :
    decodeNumber w n i = .ok j ↔ (immField w).toNat < n ∧ j = i (immField w) := by
  unfold decodeNumber
  split <;> simp_all [eq_comm]

namespace Laws

/-- The two fields of a command's encoding are its opcode of Table E3 and its operand, and a format B command is well
formed whatever its operand. -/
def EncodedFields.Statement (i : Instr) : Prop :=
  opField (encode i) = i.opcode ∧ immField (encode i) = i.operand

theorem EncodedFields.init : EncodedFields.Statement .init := ⟨opField_commandOf _ _, immField_commandOf _ _⟩
theorem EncodedFields.crcClr : EncodedFields.Statement .crcClr := ⟨opField_commandOf _ _, immField_commandOf _ _⟩
theorem EncodedFields.crcUpd (b : Byte) : EncodedFields.Statement (.crcUpd b) :=
  ⟨opField_commandOf _ _, immField_commandOf _ _⟩
theorem EncodedFields.crcEmit : EncodedFields.Statement .crcEmit := ⟨opField_commandOf _ _, immField_commandOf _ _⟩
theorem EncodedFields.b64Clr : EncodedFields.Statement .b64Clr := ⟨opField_commandOf _ _, immField_commandOf _ _⟩
theorem EncodedFields.b64Push (b : Byte) : EncodedFields.Statement (.b64Push b) :=
  ⟨opField_commandOf _ _, immField_commandOf _ _⟩
theorem EncodedFields.b64End : EncodedFields.Statement .b64End := ⟨opField_commandOf _ _, immField_commandOf _ _⟩
theorem EncodedFields.adrByte (b : Byte) : EncodedFields.Statement (.adrByte b) :=
  ⟨opField_commandOf _ _, immField_commandOf _ _⟩
theorem EncodedFields.adrEnd : EncodedFields.Statement .adrEnd := ⟨opField_commandOf _ _, immField_commandOf _ _⟩
theorem EncodedFields.rdr (n : Byte) : EncodedFields.Statement (.rdr n) :=
  ⟨opField_commandOf _ _, immField_commandOf _ _⟩
theorem EncodedFields.rde (a : Byte) : EncodedFields.Statement (.rde a) :=
  ⟨opField_commandOf _ _, immField_commandOf _ _⟩
theorem EncodedFields.rdt (a : Byte) : EncodedFields.Statement (.rdt a) :=
  ⟨opField_commandOf _ _, immField_commandOf _ _⟩

end Laws

end Sys2Proof
end

