-- ==== Sys2Proof/Laws/Exec.lean ====
section
/-! SUPPORT. Each command's meaning as one equation per case, so that no later proof unfolds it. -/

namespace Sys2Proof.Machine

/-! ## The fault state -/

/-- The eight commands behind the gate are discarded in the fault state (R80). -/
theorem exec_faulted {s : State} (h : s.err ≠ 0#3) :
    exec .crcClr s = .next s ∧ (∀ b, exec (.crcUpd b) s = .next s) ∧ exec .crcEmit s = .next s ∧
    exec .b64Clr s = .next s ∧ (∀ b, exec (.b64Push b) s = .next s) ∧ exec .b64End s = .next s ∧
    (∀ b, exec (.adrByte b) s = .next s) ∧ exec .adrEnd s = .next s :=
  ⟨State.gate_faulted h _, fun _ => State.gate_faulted h _, State.gate_faulted h _, State.gate_faulted h _,
    fun _ => State.gate_faulted h _, State.gate_faulted h _, fun _ => State.gate_faulted h _, State.gate_faulted h _⟩

/-! ## System and read commands -/

theorem exec_init (s : State) : exec .init s = .next s.toReset := rfl

theorem exec_rdr (n : Byte) (s : State) :
    exec (.rdr n) s =
      match statusNumber n with
      | some w => .next (s.respond (s.csr w))
      | none => s.illegalCommand 0x80#8 := rfl

theorem exec_rde_ok {a : Byte} (h : a.toNat < 36) (s : State) :
    exec (.rde a) s = .next (s.respond ((s.memRead .ea a.toNat).setWidth 16)) := by
  show execRde a s = _
  rw [execRde, bufferAddress_eq, if_pos (show a.toNat < Space.ea.size from h)]

theorem exec_rde_past {a : Byte} (h : ¬ a.toNat < 36) (s : State) :
    exec (.rde a) s = s.illegalCommand 0x81#8 := by
  show execRde a s = _
  rw [execRde, bufferAddress_eq, if_neg (show ¬ a.toNat < Space.ea.size from h)]

theorem exec_rdt_ok {a : Byte} (h : a.toNat < 48) (s : State) :
    exec (.rdt a) s = .next (s.respond ((s.memRead .txt a.toNat).setWidth 16)) := by
  show execRdt a s = _
  rw [execRdt, bufferAddress_eq, if_pos (show a.toNat < Space.txt.size from h)]

theorem exec_rdt_past {a : Byte} (h : ¬ a.toNat < 48) (s : State) :
    exec (.rdt a) s = s.illegalCommand 0x82#8 := by
  show execRdt a s = _
  rw [execRdt, bufferAddress_eq, if_neg (show ¬ a.toNat < Space.txt.size from h)]

/-! ## The CRC unit -/

theorem exec_crcClr {s : State} (h : s.err = 0#3) : exec .crcClr s = .next { s with crc := crcInit } :=
  State.gate_running h _

theorem exec_crcUpd {s : State} (h : s.err = 0#3) (b : Byte) :
    exec (.crcUpd b) s = .next { s with crc := crcByte s.crc b } := State.gate_running h _

/-! ## Commands that append -/

theorem State.appending_overflow {s : State} {n : Nat} (h : s.err = 0#3) (ho : 48 < s.tlen.toNat + n)
    (work : State → Except Fault State) :
    s.appending n work = .next (s.raiseFault .txtOverflow (s.tlen.setWidth 8)) := by
  unfold State.appending
  rw [State.gate_running h, if_pos (show s.textOverflows n = true from decide_eq_true ho)]

theorem State.appending_fits {s : State} {n : Nat} (h : s.err = 0#3) (hf : s.tlen.toNat + n ≤ 48)
    (work : State → Except Fault State) : s.appending n work = settle (work { s with done := false }) := by
  unfold State.appending
  have hn : ¬ s.textOverflows n = true := fun e => absurd (of_decide_eq_true e) (Nat.not_lt.mpr hf)
  rw [State.gate_running h, if_neg hn]

/-- A run of bytes that fits, appended by `CRC.EMIT` (two bytes) or `B64.PUSH` (one). -/
theorem exec_b64Push {s : State} (h : s.err = 0#3) (hp : s.ph ≠ 3#2) (b : Byte)
    (hf : s.tlen.toNat + nchars s.ph.toNat 1 ≤ 48) :
    exec (.b64Push b) s = .next
      { s with txt := s.txt.writeAll s.tlen.toNat (streamText s.ph s.acc [b])
               tlen := s.tlen + BitVec.ofNat 6 (nchars s.ph.toNat 1)
               ph := streamPh s.ph [b], acc := streamAcc s.ph s.acc [b], done := false } := by
  have hall : b64Push b { s with done := false } = b64PushAll [b] { s with done := false } := by
    simp only [b64PushAll]
    cases b64Push b { s with done := false } <;> rfl
  show execB64Push b s = _
  rw [execB64Push, State.appending_fits h hf, dataByte, hall, b64PushAll_ok (bs := [b]) (s := { s with done := false }) hp hf]
  rfl

theorem exec_crcEmit {s : State} (h : s.err = 0#3) (hp : s.ph ≠ 3#2) (hf : s.tlen.toNat + nchars s.ph.toNat 2 ≤ 48) :
    exec .crcEmit s = .next
      { s with txt := s.txt.writeAll s.tlen.toNat (streamText s.ph s.acc [highByte s.crc, lowByte s.crc])
               tlen := s.tlen + BitVec.ofNat 6 (nchars s.ph.toNat 2)
               ph := streamPh s.ph [highByte s.crc, lowByte s.crc]
               acc := streamAcc s.ph s.acc [highByte s.crc, lowByte s.crc], done := false } := by
  show execCrcEmit s = _
  rw [execCrcEmit, State.appending_fits h hf,
    b64PushAll_ok (bs := [highByte s.crc, lowByte s.crc]) (s := { s with done := false }) hp hf]
  rfl

theorem exec_b64Clr {s : State} (h : s.err = 0#3) : exec .b64Clr s = .next { s.clearText with done := false } :=
  State.gate_running h _

theorem exec_b64End {s : State} (h : s.err = 0#3) (hp : s.ph ≠ 3#2)
    (hf : s.tlen.toNat + (if s.ph = 0#2 then 0 else 1) ≤ 48) :
    exec .b64End s = .next
      { s with txt := s.txt.writeAll s.tlen.toNat (flushText s.ph s.acc)
               tlen := s.tlen + (if s.ph = 0#2 then 0#6 else 1#6), ph := 0#2, acc := 0#4, done := false } := by
  show execB64End s = _
  rw [execB64End, State.appending_fits h hf]
  rcases phase_cases hp with e | e | e
  · rw [b64Flush_ok (s := { s with done := false }) (.inl e)]
    simp [e, flushText, Memory.writeAll]
  · rw [b64Flush_ok (s := { s with done := false }) (.inr (.inr (by simp [e] at hf; show s.tlen.toNat < 48; omega)))]
    simp [e, flushText, Memory.writeAll]
  · rw [b64Flush_ok (s := { s with done := false }) (.inr (.inr (by simp [e] at hf; show s.tlen.toNat < 48; omega)))]
    simp [e, flushText, Memory.writeAll]

/-! ## The address unit -/

theorem exec_adrByte {s : State} (h : s.err = 0#3) (b : Byte) :
    exec (.adrByte b) s = .next
      (if s.pos = 0#6 then { s with tag := b, pos := nextPos s.pos, done := false }
       else if s.pos.toNat ≤ 33 then { s with ea := s.ea.write s.pos.toNat b, pos := nextPos s.pos, done := false }
       else { s with pos := nextPos s.pos, done := false }) := by
  show execAdrByte b s = _
  unfold execAdrByte
  rw [State.gate_running h, receiveByte_ok]
  simp only [bind, Except.bind, pure, Except.pure, settle_ok, dataByte]
  split
  · rfl
  · split <;> rfl

theorem exec_adrEnd_short {s : State} (h : s.err = 0#3) (hp : s.pos.toNat < 34) :
    exec .adrEnd s = .next (s.raiseFault .malformedInput (s.pos.setWidth 8)) := by
  show execAdrEnd s = _
  unfold execAdrEnd
  rw [State.gate_running h, if_pos (show s.pos.toNat < rawMin from hp)]

theorem exec_adrEnd_wrongTag {s : State} (h : s.err = 0#3) (hp : ¬ s.pos.toNat < 34) (ht : s.tag ≠ tagStd) :
    exec .adrEnd s = .next (s.raiseFault .unsupportedTag s.tag) := by
  show execAdrEnd s = _
  unfold execAdrEnd
  rw [State.gate_running h, if_neg (show ¬ s.pos.toNat < rawMin from hp), if_pos ht]

theorem exec_adrEnd_accepted {s : State} (h : s.err = 0#3) (hp : ¬ s.pos.toNat < 34) (ht : s.tag = tagStd) :
    exec .adrEnd s = .next
      { s with
        crc := crcSeq (s.bytes .ea 0 34)
        ea := (s.ea.write 34 (highByte (crcSeq (s.bytes .ea 0 34)))).write 35 (lowByte (crcSeq (s.bytes .ea 0 34)))
        txt := Memory.writeAll [] 0 (b64url (withChecksum (s.bytes .ea 0 34)))
        tlen := 48#6, ph := 0#2, acc := 0#4, pos := 0#6, done := true } := by
  show execAdrEnd s = _
  unfold execAdrEnd
  rw [State.gate_running h, if_neg (show ¬ s.pos.toNat < rawMin from hp), if_neg (not_not.mpr ht), buildAddress_ok]
  rfl

/-! ## The latched fault in the document's words (R181) -/

@[simp] theorem FaultCode.code_ne_zero (c : FaultCode) : c.code ≠ 0#3 := by cases c <;> decide

/-- Fault entry latches the fault it was given. -/
@[simp] theorem State.latchedFault_raiseFault (s : State) (c : FaultCode) (info : Byte) :
    (s.raiseFault c info).latchedFault = some c := by cases c <;> rfl

/-- What fault entry says in the document's words: an error for codes 1 and 2, none for codes 3 and 4. -/
@[simp] theorem State.documentError_raiseFault (s : State) (c : FaultCode) (info : Byte) :
    (s.raiseFault c info).documentError =
      match c with
      | .malformedInput => some (.malformedInput info.toNat)
      | .unsupportedTag => some (.unsupportedTag info)
      | .illegalCommand | .txtOverflow => none := by cases c <;> rfl

@[simp] theorem State.hostMisused_raiseFault (s : State) (c : FaultCode) (info : Byte) :
    (s.raiseFault c info).hostMisused =
      match c with
      | .illegalCommand | .txtOverflow => true
      | .malformedInput | .unsupportedTag => false := by cases c <;> rfl

theorem State.documentError_running {s : State} (h : s.err = 0#3) : s.documentError = none := by
  simp [State.documentError, State.latchedFault, h]

/-- Only `ERR` and `ERRINFO` say which error it is. -/
theorem State.documentError_congr {s t : State} (he : t.err = s.err) (hi : t.errInfo = s.errInfo) :
    t.documentError = s.documentError := by
  simp [State.documentError, State.latchedFault, he, hi]

end Sys2Proof.Machine
end

