-- ==== Sys2Proof/Tests/Slice0.lean ====
section
/-! SUPPORT. Tests of the model on the spec's own examples and vectors (`95_test_vectors.md` and the examples of the rules), each
of one step, and for every statement with hypotheses a concrete state that meets them, clause by clause at the edge of its
range. -/

namespace Sys2Proof.Tests

open Sys2Proof.Machine

/-- The next state of an outcome, if it is one. -/
def nextOf : Step → Option State
  | .next t => some t
  | .fault _ => none
  | .refused _ => none

/-- One field of the next state. -/
def after {α : Type} (r : Step) (f : State → α) : Option α := (nextOf r).map f

/-- The characters of `TXT[0..n-1]`. -/
def text (n : Nat) (s : State) : List Byte := s.bytes .txt 0 n

/-- The reset state. -/
def base : State := State.reset

/-- A state with a text of `n` characters 'A', at a phase and with bits waiting. -/
def withText (n : Nat) (ph : BitVec 2) (acc : BitVec 4) : State :=
  { base with tlen := BitVec.ofNat 6 n, ph := ph, acc := acc, txt := (List.range n).map (fun a => (a, 0x41#8)) }

/-- The state of P5 after its fault (2.4 b): code 1, a record of 33 bytes. -/
def faulted : State :=
  { base with err := 1#3, errInfo := 0x21#8, pos := 33#6, tag := 0x43#8, resp := 0x4321#16 }

/-- Record A1: a whole record, tag `0x43`, all other bytes zero. -/
def recordA1 : State := { base with pos := 34#6, tag := 0x43#8 }

/-- Record A3: workchain `0xFF`, hash `00 01 ... 1F`. -/
def recordA3 : State :=
  { recordA1 with ea := (1, 0xFF#8) :: (List.range' 3 31).map (fun a => (a, BitVec.ofNat 8 (a - 2))) }

/-- The state after the conversion of A1. -/
def convertedA1 : State := (nextOf (exec .adrEnd recordA1)).getD base

/-! ## Decoding: one word of every command, written out from Table E3 -/

theorem test_decode_init : decode 0b0000000100000000#16 = .ok .init := by decide
theorem test_decode_crcClr : decode 0b0001000000000000#16 = .ok .crcClr := by decide
theorem test_decode_crcUpd : decode 0b0001000100110001#16 = .ok (.crcUpd 0x31#8) := by decide
theorem test_decode_crcEmit : decode 0b0001001000000000#16 = .ok .crcEmit := by decide
theorem test_decode_b64Clr : decode 0b0010000000000000#16 = .ok .b64Clr := by decide
theorem test_decode_b64Push : decode 0b0010000111111011#16 = .ok (.b64Push 0xFB#8) := by decide
theorem test_decode_b64End : decode 0b0010001000000000#16 = .ok .b64End := by decide
theorem test_decode_adrByte : decode 0b0011000101000011#16 = .ok (.adrByte 0x43#8) := by decide
theorem test_decode_adrEnd : decode 0b0011001000000000#16 = .ok .adrEnd := by decide
theorem test_decode_rdr : decode 0b1000000000000011#16 = .ok (.rdr 3#8) := by decide
theorem test_decode_rde : decode 0b1000000100100011#16 = .ok (.rde 35#8) := by decide
theorem test_decode_rdt : decode 0b1000001000101111#16 = .ok (.rdt 47#8) := by decide

/-- The illegal words of 2.4 a, each by its kind. -/
theorem test_decode_illegal :
    decode 0x0000#16 = .error (.undefinedOpcode 0x00#8) ∧ decode 0xFFFF#16 = .error (.undefinedOpcode 0xFF#8) ∧
    decode 0x3000#16 = .error (.undefinedOpcode 0x30#8) ∧ decode 0x0101#16 = .error (.operandNotZero 0x01#8 0x01#8) ∧
    decode 0x1201#16 = .error (.operandNotZero 0x12#8 0x01#8) ∧ decode 0x8004#16 = .error (.operandPastLimit 0x80#8 4#8) ∧
    decode 0x8124#16 = .error (.operandPastLimit 0x81#8 36#8) ∧ decode 0x8230#16 = .error (.operandPastLimit 0x82#8 48#8) := by
  decide

theorem test_decodeTableWord : decodeTableWord 16 0x2142 = some (.b64Push 0x42#8) ∧ decodeTableWord 16 0x8124 = none := by
  decide

/-- The encodings of P4's commands. -/
theorem test_encode : encode .init = 0x0100#16 ∧ encode (.adrByte 0x43#8) = 0x3143#16 ∧ encode .adrEnd = 0x3200#16 ∧
    encode (.rdr 0#8) = 0x8000#16 := by decide

/-! ## WellFormed: an ill-formed term for each check, refused, and the nearest good one -/

theorem test_wellFormed_rdr : (Instr.rdr 4#8).wellFormed = false ∧ (Instr.rdr 3#8).wellFormed = true := by decide
theorem test_wellFormed_rde : (Instr.rde 36#8).wellFormed = false ∧ (Instr.rde 35#8).wellFormed = true := by decide
theorem test_wellFormed_rdt : (Instr.rdt 48#8).wellFormed = false ∧ (Instr.rdt 47#8).wellFormed = true := by decide

/-! ## The pure functions -/

/-- R110 and 2.1 a. -/
theorem test_crcBit : [0x0001#16, 0x4000#16, 0x7FFF#16, 0x8000#16, 0x8001#16, 0xFFFF#16].map crcBit =
    [0x0002#16, 0x8000#16, 0xFFFE#16, 0x1021#16, 0x1023#16, 0xEFDF#16] := by decide

/-- R111 and 2.1 b. -/
theorem test_crcByte : crcByte 0x0000#16 0x31#8 = 0x2672#16 ∧ crcByte 0xFFFF#16 0x00#8 = 0xE1F0#16 ∧
    crcByte 0xFFFF#16 0xFF#8 = 0xFF00#16 ∧ crcByte 0x1234#16 0x12#8 = 0x3400#16 := by decide

/-- The document's own check value (S1). -/
theorem test_crcSeq : crcSeq [0x31#8, 0x32#8, 0x33#8, 0x34#8, 0x35#8, 0x36#8, 0x37#8, 0x38#8, 0x39#8] = 0x31C3#16 := by
  decide +kernel

/-- The last row of the table of 2.1 d. -/
theorem test_crcTable : [0xF8#8, 0xF9#8, 0xFA#8, 0xFB#8, 0xFC#8, 0xFD#8, 0xFE#8, 0xFF#8].map crcTable =
    [0x6E17#16, 0x7E36#16, 0x4E55#16, 0x5E74#16, 0x2E93#16, 0x3EB2#16, 0x0ED1#16, 0x1EF0#16] := by decide +kernel

/-- Table B1 at the ends of its ranges (2.2 a). -/
theorem test_alpha : [0#6, 25#6, 26#6, 51#6, 52#6, 61#6, 62#6, 63#6].map alpha =
    [0x41#8, 0x5A#8, 0x61#8, 0x7A#8, 0x30#8, 0x39#8, 0x2D#8, 0x5F#8] := by decide

/-- "Zm9vYmE" and "-_8" (2.2 b), and the way back (section 5). -/
theorem test_b64url : b64url [0x66#8, 0x6F#8, 0x6F#8, 0x62#8, 0x61#8] = [0x5A#8, 0x6D#8, 0x39#8, 0x76#8, 0x59#8, 0x6D#8, 0x45#8] ∧
    b64url [0xFB#8, 0xFF#8] = [0x2D#8, 0x5F#8, 0x38#8] ∧ unb64url [0x2D#8, 0x5F#8, 0x38#8] = some [0xFB#8, 0xFF#8] := by
  decide +kernel

/-- R134. -/
theorem test_nchars : nchars 0 1 = 1 ∧ nchars 1 1 = 1 ∧ nchars 2 1 = 2 ∧ nchars 0 2 = 2 ∧ nchars 1 2 = 3 ∧ nchars 2 2 = 3 ∧
    nchars 0 36 = 48 := by decide

/-- 2.3 b, last row: short and wrongly tagged is short. -/
theorem test_convert_short : convert (List.replicate 10 0x00#8) = .error (.malformedInput 10) := by decide

/-- R82: the example line, a comment, an operand past a byte, and a pseudo-command of R83. -/
theorem test_assembleLine :
    assembleLine ['C', 'R', 'C', '.', 'U', 'P', 'D', ' ', '\'', '1', '\'', ' ', ';', 'x'] = some [0x1131#16] ∧
    assembleLine ['R', 'D', 'R', ' ', '2', '5', '6'] = none ∧
    assembleLine ['E', 'N', 'C', '.', 'B', 'Y', 'T', 'E', ' ', '0', 'x', '6', '6'] = some [0x1166#16, 0x2166#16] := by
  decide

/-! ## Steps -/

/-- 2.4 a: `RDE 36` from reset. -/
theorem test_step_illegal : after (step (base.withFetchWord 16 0x8124)) (fun t => (t.err, t.errInfo, t.done, t.input)) =
    some (3#3, 0x81#8, false, []) := by decide

/-- 2.4 b: in the fault state `0xFFFF` changes nothing, `RDR 0` reads the fault. -/
theorem test_step_faulted : step (faulted.withFetchWord 16 0xFFFF) = .next faulted ∧
    step (faulted.withFetchWord 16 0x8000) = .next { faulted with resp := 0x2106#16 } := ⟨rfl, rfl⟩

theorem test_step_idle : step base = .next base := rfl

theorem test_step_reset : step { faulted with input := [.reset, .command 0x1131#16] } =
    .next { base with input := [.command 0x1131#16] } := rfl

/-! ## The commands, on the examples of their rules -/

theorem test_init : exec .init faulted = .next base := rfl

/-- 2.3 a, the status words of A1 after its conversion. -/
theorem test_rdr : (List.range 4).map (fun n => after (exec (.rdr (BitVec.ofNat 8 n)) convertedA1) (·.resp)) =
    [some 0x0001#16, some 0x9299#16, some 0x0030#16, some 0x4300#16] := by decide +kernel

theorem test_rde : after (exec (.rde 0#8) base) (·.resp) = some 0x0051#16 ∧
    after (exec (.rde 34#8) convertedA1) (·.resp) = some 0x0092#16 := by decide +kernel

theorem test_rdt : after (exec (.rdt 0#8) convertedA1) (·.resp) = some 0x0055#16 ∧
    after (exec (.rdt 47#8) convertedA1) (·.resp) = some 0x005A#16 := by decide +kernel

theorem test_crcClr : exec .crcClr { base with crc := 0x31C3#16, done := true } = .next { base with done := true } := rfl

/-- R115's example: the second byte goes on from the first. -/
theorem test_crcUpd : after (exec (.crcUpd 0x31#8) base) (·.crc) = some 0x2672#16 ∧
    after (exec (.crcUpd 0x32#8) { base with crc := 0x2672#16 }) (·.crc) = some 0x20B5#16 := by decide

/-- R116's example. -/
theorem test_crcEmit : after (exec .crcEmit { base with crc := 0x31C3#16 }) (fun t => (text 2 t, t.tlen, t.ph, t.acc)) =
    some ([0x4D#8, 0x63#8], 2#6, 2#2, 3#4) := by decide +kernel

/-- 2.1 e: the overflow edges of `CRC.EMIT`. -/
theorem test_crcEmit_edges : after (exec .crcEmit (withText 46 0#2 0#4)) (fun t => (t.err, t.tlen, t.ph)) = some (0#3, 48#6, 2#2) ∧
    after (exec .crcEmit (withText 45 1#2 0#4)) (fun t => (t.err, t.tlen, t.ph)) = some (0#3, 48#6, 0#2) ∧
    after (exec .crcEmit (withText 46 2#2 0#4)) (fun t => (t.err, t.errInfo, t.tlen, t.ph)) = some (4#3, 0x2E#8, 46#6, 2#2) := by
  decide +kernel

theorem test_b64Clr : exec .b64Clr { withText 3 2#2 15#4 with done := true } = .next base := rfl

/-- R136's example, its third push. -/
theorem test_b64Push : after (exec (.b64Push 0xBF#8) (withText 2 2#2 15#4)) (fun t => (text 4 t, t.tlen, t.ph, t.acc)) =
    some ([0x41#8, 0x41#8, 0x2D#8, 0x5F#8], 4#6, 0#2, 0#4) := by decide +kernel

/-- R136: with `TLEN = 47` a push fits at phase 1 and faults at phase 2. -/
theorem test_b64Push_edges : after (exec (.b64Push 0x00#8) (withText 47 1#2 0#4)) (fun t => (t.err, t.tlen)) = some (0#3, 48#6) ∧
    after (exec (.b64Push 0x00#8) (withText 47 2#2 0#4)) (fun t => (t.err, t.errInfo, t.tlen)) = some (4#3, 0x2F#8, 47#6) := by
  decide +kernel

/-- R137's example: "Z" and two bits become "Zg". -/
theorem test_b64End : after (exec .b64End { base with tlen := 1#6, ph := 1#2, acc := 2#4, txt := [(0, 0x5A#8)] })
    (fun t => (text 2 t, t.tlen, t.ph, t.acc)) = some ([0x5A#8, 0x67#8], 2#6, 0#2, 0#4) := by decide +kernel

/-- 2.2 c: at `TLEN = 48` it does nothing at phase 0 and faults at phase 1. -/
theorem test_b64End_edges : exec .b64End (withText 48 0#2 0#4) = .next (withText 48 0#2 0#4) ∧
    after (exec .b64End (withText 48 1#2 0#4)) (fun t => (t.err, t.errInfo, t.ph)) = some (4#3, 0x30#8, 1#2) := ⟨rfl, rfl⟩

/-- R151's example. -/
theorem test_adrByte : exec (.adrByte 0x43#8) base = .next { base with tag := 0x43#8, pos := 1#6 } ∧
    exec (.adrByte 0xFF#8) { base with pos := 1#6 } = .next { base with pos := 2#6, ea := [(1, 0xFF#8)] } := ⟨rfl, rfl⟩

/-- A byte of the tail is dropped (R151). -/
theorem test_adrByte_tail : exec (.adrByte 0xAA#8) recordA1 = .next recordA1 := rfl

/-- A3 of 2.3 a: the checksum, its place, and the first and last characters of its text. -/
theorem test_adrEnd : after (exec .adrEnd recordA3)
    (fun t => (t.crc, t.memRead .ea 34, t.memRead .ea 35, text 4 t, t.bytes .txt 44 4)) =
    some (0xBF2E#16, 0xBF#8, 0x2E#8, [0x55#8, 0x66#8, 0x38#8, 0x41#8], [0x48#8, 0x37#8, 0x38#8, 0x75#8]) := by decide +kernel

/-- 2.3 b and c: 33 bytes, and the tag `0x44`. -/
theorem test_adrEnd_faults :
    exec .adrEnd { recordA1 with pos := 33#6 } = .next { recordA1 with pos := 33#6, err := 1#3, errInfo := 0x21#8 } ∧
    exec .adrEnd { recordA1 with tag := 0x44#8 } = .next { recordA1 with tag := 0x44#8, err := 2#3, errInfo := 0x44#8 } :=
  ⟨rfl, rfl⟩

/-- The four faults of programs P5 and P6 and of 2.4 a and 2.2 c in the document's words (R181). -/
theorem test_documentError :
    ({ base with err := 1#3, errInfo := 0x21#8 } : State).documentError = some (.malformedInput 33) ∧
    ({ base with err := 2#3, errInfo := 0x44#8 } : State).documentError = some (.unsupportedTag 0x44#8) ∧
    ({ base with err := 3#3, errInfo := 0x80#8 } : State).documentError = none ∧
    ({ base with err := 4#3, errInfo := 0x30#8 } : State).documentError = none ∧ base.documentError = none := by decide

/-! ## Witnesses: the hypotheses of each statement are met -/

theorem witness_EncodeOfDecodeIsTheWord : ∃ w i, decode w = .ok i := ⟨0x8123#16, .rde 35#8, by decide⟩

theorem witness_RejectedWordsAreNamedByTheirKind :
    (∃ w e, decode w = .error e ∧ opField w = 0x30#8) ∧ (∃ w e, decode w = .error e ∧ opField w = 0x32#8) ∧
    (∃ w e, decode w = .error e ∧ opField w = 0x80#8 ∧ (immField w).toNat = 4) ∧
    (∃ w e, decode w = .error e ∧ opField w = 0x81#8 ∧ (immField w).toNat = 36) ∧
    (∃ w e, decode w = .error e ∧ opField w = 0x82#8 ∧ (immField w).toNat = 48) :=
  ⟨⟨0x3000#16, .undefinedOpcode 0x30#8, by decide⟩, ⟨0x3201#16, .operandNotZero 0x32#8 1#8, by decide⟩,
    ⟨0x8004#16, .operandPastLimit 0x80#8 4#8, by decide⟩, ⟨0x8124#16, .operandPastLimit 0x81#8 36#8, by decide⟩,
    ⟨0x8230#16, .operandPastLimit 0x82#8 48#8, by decide⟩⟩

theorem witness_StepRunsTheDecodedCommand :
    ∃ (s : State) (w : Word) (rest : List HostEvent) (i : Instr), s.input = .command w :: rest ∧ decode w = .ok i :=
  ⟨{ base with input := [.command 0x1131#16] }, 0x1131#16, [], .crcUpd 0x31#8, rfl, by decide⟩

theorem witness_StepIsTheStepFunctionOfR81 :
    (∃ (s : State) (w : Word), s.input = [.command w] ∧ s.err ≠ 0#3 ∧ legal w = true ∧
      opField w ∈ [0x01#8, 0x80#8, 0x81#8, 0x82#8]) ∧
    (∃ (s : State) (w : Word), s.input = [.command w] ∧ s.err ≠ 0#3 ∧
      ¬ (legal w = true ∧ opField w ∈ [0x01#8, 0x80#8, 0x81#8, 0x82#8])) ∧
    (∃ (s : State) (w : Word), s.input = [.command w] ∧ s.err = 0#3 ∧ legal w = false) ∧
    (∃ (s : State) (w : Word), s.input = [.command w] ∧ s.err = 0#3 ∧ legal w = true) :=
  ⟨⟨{ faulted with input := [.command 0x8003#16] }, 0x8003#16, by decide⟩,
    ⟨{ faulted with input := [.command 0x8004#16] }, 0x8004#16, by decide⟩,
    ⟨{ base with input := [.command 0x8004#16] }, 0x8004#16, by decide⟩,
    ⟨{ base with input := [.command 0x8003#16] }, 0x8003#16, by decide⟩⟩

theorem witness_ResetResetsAndIdleKeeps :
    (∃ (s : State) (rest : List HostEvent), s.input = .reset :: rest ∧ s.err ≠ 0#3) ∧ ∃ s : State, s.input = [] :=
  ⟨⟨{ faulted with input := [.reset] }, [], by decide⟩, ⟨base, rfl⟩⟩

theorem witness_EveryRunCompletes : ∃ s : State, s.ph = 2#2 ∧ s.ph ≠ 3#2 ∧ s.input ≠ [] :=
  ⟨{ withText 47 2#2 0#4 with input := [.command 0x2100#16] }, by decide⟩

theorem witness_RunsCompose : ∃ (is : List Instr) (s t : State), is ≠ [] ∧ runCommands is s = .next t :=
  ⟨[.crcClr, .adrByte 0x43#8], base, { base with tag := 0x43#8, pos := 1#6 }, by decide, rfl⟩

theorem witness_CommandsDoNotSeeTheInput : ∃ (i : Instr) (s t : State), exec i s = .next t :=
  ⟨.crcUpd 0x31#8, base, _, rfl⟩

/-- A state in the middle of a text, the next push to come. -/
def midText : State :=
  { base with tlen := 1#6, ph := 1#2, acc := 2#4, txt := [(0, 0x5A#8)], input := [.command 0x216F#16] }

theorem midText_inv : midText.Inv := by
  constructor <;> try decide
  intro a ha
  have h0 : ¬ 0 = a := by simp [midText] at ha; omega
  simp [midText, State.memRead, Memory.read, h0, blankByte]

theorem witness_StepKeepsTheStateInvariant : ∃ s t : State, s.Inv ∧ step s = .next t := ⟨midText, _, midText_inv, rfl⟩

theorem witness_PhaseAndAccumulatorStayLegal : ∃ s t : State, s.ph = 1#2 ∧ s.acc ≠ 0#4 ∧ s.ph ≠ 3#2 ∧
    (s.ph = 0#2 → s.acc = 0#4) ∧ (s.ph = 1#2 → s.acc.extractLsb 3 2 = 0#2) ∧ step s = .next t :=
  ⟨midText, _, by decide, by decide, by decide, by decide, by decide, rfl⟩

/-- The state after the conversion of A1 has `DONE = 1`, and what R29 says holds in it. -/
theorem witness_DoneAlwaysVouchesForTheResult : ∃ s t : State, s.done = true ∧ s.DoneVouches ∧ step s = .next t :=
  ⟨convertedA1, _, by decide +kernel, by unfold State.DoneVouches; decide +kernel, rfl⟩

/-- Every clause: each register changes in some step. -/
theorem witness_RegistersChangeOnlyByTheirWriters :
    (∃ i s t, exec i s = .next t ∧ t.crc ≠ s.crc) ∧
    (∃ i s t, exec i s = .next t ∧ (t.acc ≠ s.acc ∨ t.ph ≠ s.ph ∨ t.tlen ≠ s.tlen)) ∧
    (∃ i s t, exec i s = .next t ∧ t.pos ≠ s.pos) ∧ (∃ i s t, exec i s = .next t ∧ t.tag ≠ s.tag) ∧
    (∃ i s t, exec i s = .next t ∧ t.resp ≠ s.resp) ∧ (∃ i s t, exec i s = .next t ∧ t.done ≠ s.done) ∧
    (∃ i s t, exec i s = .next t ∧ (t.err ≠ s.err ∨ t.errInfo ≠ s.errInfo)) :=
  ⟨⟨.crcUpd 1#8, base, _, rfl, by decide⟩, ⟨.b64Clr, withText 48 2#2 15#4, _, rfl, by decide⟩,
    ⟨.adrByte 0x43#8, base, _, rfl, by decide⟩, ⟨.adrByte 0x43#8, base, _, rfl, by decide⟩,
    ⟨.rde 0#8, base, _, rfl, by decide⟩, ⟨.adrEnd, { base with done := true }, _, rfl, by decide⟩,
    ⟨.adrEnd, base, _, rfl, by decide⟩⟩

/-- A change at each edge: `EA[33]` by `ADR.BYTE`, `EA[35]` by `ADR.END`, `TXT[47]` by `B64.PUSH`. -/
theorem witness_BuffersChangeOnlyWhereR53Says :
    (∃ i s t, exec i s = .next t ∧ t.memRead .ea 33 ≠ s.memRead .ea 33) ∧
    (∃ i s t, exec i s = .next t ∧ t.memRead .ea 35 ≠ s.memRead .ea 35) ∧
    (∃ i s t, exec i s = .next t ∧ t.memRead .txt 47 ≠ s.memRead .txt 47) :=
  ⟨⟨.adrByte 1#8, { base with pos := 33#6 }, _, rfl, by decide⟩,
    ⟨.adrEnd, recordA1, convertedA1, rfl, by decide +kernel⟩,
    ⟨.b64Push 1#8, withText 47 0#2 0#4, _, rfl, by decide⟩⟩

/-- One command of each of the three arms, and `ADR.END` with and without success. -/
theorem witness_DoneFollowsTheCommand :
    (∃ t, recordA1.err = 0#3 ∧ Instr.wellFormed .adrEnd = true ∧ exec .adrEnd recordA1 = .next t) ∧
    (∃ t, base.err = 0#3 ∧ Instr.wellFormed .adrEnd = true ∧ exec .adrEnd base = .next t) ∧
    (∃ t, base.err = 0#3 ∧ (Instr.rdt 47#8).wellFormed = true ∧ exec (.rdt 47#8) base = .next t) ∧
    (∃ t, base.err = 0#3 ∧ (Instr.b64Push 1#8).wellFormed = true ∧ exec (.b64Push 1#8) base = .next t) :=
  ⟨⟨_, rfl, rfl, rfl⟩, ⟨_, rfl, rfl, rfl⟩, ⟨_, rfl, rfl, rfl⟩, ⟨_, rfl, rfl, rfl⟩⟩

theorem witness_ResponseChangesOnlyByReadsAndInit :
    (∃ (s t : State) (w : Word), s.input = [.command w] ∧ step s = .next t ∧ w = 0x0100#16 ∧ s.resp ≠ 0x0000#16) ∧
    (∃ (s t : State) (w : Word), s.input = [.command w] ∧ step s = .next t ∧ w ≠ 0x0100#16 ∧
      ¬ (legal w = true ∧ opField w ∈ [0x80#8, 0x81#8, 0x82#8]) ∧ w = 0x8230#16) ∧
    (∃ s t : State, s.input = [] ∧ step s = .next t) :=
  ⟨⟨{ base with resp := 0x4321#16, input := [.command 0x0100#16] }, _, 0x0100#16, rfl, rfl, rfl, by decide⟩,
    ⟨{ base with input := [.command 0x8230#16] }, _, 0x8230#16, rfl, rfl, by decide, by decide, rfl⟩,
    ⟨base, base, rfl, rfl⟩⟩

theorem witness_FaultEntryChangesNothingElse : ∃ i s t, s.err = 0#3 ∧ exec i s = .next t ∧ t.err ≠ 0#3 :=
  ⟨.adrEnd, recordA1.toReset, _, rfl, rfl, by decide⟩

/-- All four codes, each at an edge of its condition. -/
theorem witness_FaultCausesAndContexts :
    (∃ t, exec .adrEnd { recordA1 with pos := 33#6 } = .next t ∧ t.err = 1#3) ∧
    (∃ t, exec .adrEnd { recordA1 with tag := 0x42#8 } = .next t ∧ t.err = 2#3) ∧
    (∃ t, exec (.rde 36#8) base = .next t ∧ t.err = 3#3) ∧
    (∃ t, exec .crcEmit (withText 46 1#2 0#4) = .next t ∧ t.err = 4#3) ∧
    (∃ t, exec (.b64Push 0#8) (withText 47 2#2 0#4) = .next t ∧ t.err = 4#3) ∧
    (∃ t, exec .b64End (withText 48 1#2 0#4) = .next t ∧ t.err = 4#3) :=
  ⟨⟨_, rfl, rfl⟩, ⟨_, rfl, rfl⟩, ⟨_, rfl, rfl⟩, ⟨_, rfl, rfl⟩, ⟨_, rfl, rfl⟩, ⟨_, rfl, rfl⟩⟩

theorem witness_FaultStateChangesOnlyTheResponse :
    faulted.err ≠ 0#3 ∧ Instr.adrEnd ≠ .init ∧ (∀ n, Instr.adrEnd ≠ .rdr n) ∧ (∀ a, Instr.adrEnd ≠ .rde a) ∧
    ∀ a, Instr.adrEnd ≠ .rdt a := by
  refine ⟨by decide, by decide, ?_, ?_, ?_⟩ <;> intro _ h <;> cases h

theorem witness_OnlyInitAndResetLeaveTheFaultState :
    (∃ s t : State, s.err ≠ 0#3 ∧ s.input = [.command 0x0100#16] ∧ step s = .next t ∧ t.err = 0#3) ∧
    (∃ s t : State, s.err ≠ 0#3 ∧ s.input = [.reset] ∧ step s = .next t ∧ t.err = 0#3) ∧
    (∃ s t : State, s.err ≠ 0#3 ∧ s.input = [.command 0x0101#16] ∧ step s = .next t ∧ t.err ≠ 0#3) :=
  ⟨⟨{ faulted with input := [.command 0x0100#16] }, _, by decide, rfl, rfl, rfl⟩,
    ⟨{ faulted with input := [.reset] }, _, by decide, rfl, rfl, rfl⟩,
    ⟨{ faulted with input := [.command 0x0101#16] }, _, by decide, rfl, rfl, by decide⟩⟩

/-- Format N: an operand that is not zero, at the edge (`INIT`, `CRC.CLR`, `CRC.EMIT`, `B64.CLR`, `B64.END`, `ADR.END`). -/
theorem witness_nonzero_operand : ∃ imm : Byte, imm ≠ 0x00#8 ∧ imm = 1#8 := ⟨1#8, by decide⟩

/-- Clauses over the fault state and over its absence, for every command's statement. -/
theorem witness_running_and_faulted : (∃ s : State, s.err = 0#3) ∧ ∃ s : State, s.err ≠ 0#3 :=
  ⟨⟨base, rfl⟩, ⟨faulted, by decide⟩⟩

theorem witness_InitGivesTheResetState : ((∃ a : Nat, 1 ≤ a ∧ a ≤ 35 ∧ a = 35) ∧ ∃ a : Nat, a ≤ 47 ∧ a = 47) ∧
    (∃ (s : State) (imm : Byte) (rest : List HostEvent), imm ≠ 0x00#8 ∧ s.input = .command (commandOf 0x01#8 imm) :: rest ∧
      s.err = 0#3) ∧
    (∃ (s : State) (imm : Byte) (rest : List HostEvent), imm ≠ 0x00#8 ∧ s.input = .command (commandOf 0x01#8 imm) :: rest ∧
      s.err ≠ 0#3) ∧
    ∃ (i : Instr) (s t : State), s.err ≠ 0#3 ∧ exec i s = .next t ∧ t.err = 0#3 :=
  ⟨⟨⟨35, by decide⟩, ⟨47, by decide⟩⟩, ⟨{ base with input := [.command 0x0101#16] }, 1#8, [], by decide⟩,
    ⟨{ faulted with input := [.command 0x0101#16] }, 1#8, [], by decide⟩, ⟨.init, faulted, _, by decide, rfl, by decide⟩⟩

theorem witness_RdrReadsTheStatusWords :
    (∃ n : Byte, n.toNat < 4 ∧ n = 3#8) ∧ (∃ (s : State) (n : Byte), 4 ≤ n.toNat ∧ n = 4#8 ∧ s.err = 0#3) ∧
    ∃ (s : State) (n : Byte), 4 ≤ n.toNat ∧ n = 4#8 ∧ s.err ≠ 0#3 :=
  ⟨⟨3#8, by decide⟩, ⟨base, 4#8, by decide⟩, ⟨faulted, 4#8, by decide⟩⟩

theorem witness_RdeReadsOneByteOfTheAddress :
    (∃ a : Byte, a.toNat ≤ 35 ∧ a = 35#8) ∧ (∃ (s : State) (a : Byte), 36 ≤ a.toNat ∧ a = 36#8 ∧ s.err = 0#3) ∧
    ∃ (s : State) (a : Byte), 36 ≤ a.toNat ∧ a = 36#8 ∧ s.err ≠ 0#3 :=
  ⟨⟨35#8, by decide⟩, ⟨base, 36#8, by decide⟩, ⟨faulted, 36#8, by decide⟩⟩

theorem witness_RdtReadsOneCharacterOfTheText :
    (∃ a : Byte, a.toNat ≤ 47 ∧ a = 47#8) ∧ (∃ (s : State) (a : Byte), s.Inv ∧ s.tlen.toNat ≤ a.toNat ∧ a.toNat ≤ 47) ∧
    (∃ (s : State) (a : Byte), 48 ≤ a.toNat ∧ a = 48#8 ∧ s.err = 0#3) ∧
    ∃ (s : State) (a : Byte), 48 ≤ a.toNat ∧ a = 48#8 ∧ s.err ≠ 0#3 :=
  ⟨⟨47#8, by decide⟩, ⟨midText, 1#8, midText_inv, by decide, by decide⟩, ⟨base, 48#8, by decide⟩,
    ⟨faulted, 48#8, by decide⟩⟩

theorem witness_CrcEmitAppendsTheChecksum :
    (∃ (s : State) (n : Nat), s.ph ≠ 3#2 ∧ n = (if s.ph = 0#2 then 2 else 3) ∧ s.err = 0#3 ∧ s.tlen.toNat + n = 48) ∧
    (∃ (s : State) (n : Nat), s.ph ≠ 3#2 ∧ n = (if s.ph = 0#2 then 2 else 3) ∧ s.err = 0#3 ∧ s.tlen.toNat + n = 49) ∧
    ∃ (s : State) (n : Nat), s.ph ≠ 3#2 ∧ n = (if s.ph = 0#2 then 2 else 3) ∧ s.err ≠ 0#3 :=
  ⟨⟨withText 45 2#2 0#4, 3, by decide⟩, ⟨withText 47 0#2 0#4, 2, by decide⟩, ⟨faulted, 2, by decide⟩⟩

theorem witness_B64PushEncodesOneByte :
    (∃ s : State, s.err = 0#3 ∧ s.ph = 0#2 ∧ s.tlen.toNat = 47) ∧ (∃ s : State, s.err = 0#3 ∧ s.ph = 1#2 ∧ s.tlen.toNat = 47) ∧
    (∃ s : State, s.err = 0#3 ∧ s.ph = 2#2 ∧ s.tlen.toNat = 46) ∧ (∃ s : State, s.err = 0#3 ∧ s.ph = 2#2 ∧ s.tlen.toNat = 47) ∧
    ∃ s : State, s.err = 0#3 ∧ s.ph ≠ 2#2 ∧ s.tlen.toNat = 48 :=
  ⟨⟨withText 47 0#2 0#4, by decide⟩, ⟨withText 47 1#2 0#4, by decide⟩, ⟨withText 46 2#2 0#4, by decide⟩,
    ⟨withText 47 2#2 0#4, by decide⟩, ⟨withText 48 0#2 0#4, by decide⟩⟩

theorem witness_B64EndFlushesTheLastGroup :
    (∃ s : State, s.err = 0#3 ∧ s.ph = 0#2 ∧ s.tlen.toNat = 48) ∧ (∃ s : State, s.err = 0#3 ∧ s.ph = 1#2 ∧ s.tlen.toNat = 47) ∧
    (∃ s : State, s.err = 0#3 ∧ s.ph = 2#2 ∧ s.tlen.toNat = 47) ∧ ∃ s : State, s.err = 0#3 ∧ s.ph ≠ 0#2 ∧ s.tlen.toNat = 48 :=
  ⟨⟨withText 48 0#2 0#4, by decide⟩, ⟨withText 47 1#2 0#4, by decide⟩, ⟨withText 47 2#2 0#4, by decide⟩,
    ⟨withText 48 1#2 0#4, by decide⟩⟩

theorem witness_StreamedTextIsTheTextOfTheMessage :
    (∃ bs : List Byte, bs.length ≤ 36 ∧ bs.length = 36) ∧ ∃ bs : List Byte, 36 < bs.length ∧ bs.length = 37 :=
  ⟨⟨List.replicate 36 0#8, by decide⟩, ⟨List.replicate 37 0#8, by decide⟩⟩

theorem witness_TextLengthLaw : ∃ s : List Byte, s.length = 36 := ⟨List.replicate 36 0#8, by decide⟩

theorem witness_TextDeterminesTheBytes : ∃ s t : List Byte, s.length = t.length ∧ b64url s = b64url t ∧ s ≠ [] :=
  ⟨[0xFB#8], [0xFB#8], rfl, rfl, by decide⟩

theorem witness_TextHoldsOnlyAlphabetCharacters : (∃ s : List Byte, ∃ c, c ∈ b64url s) ∧ ∃ i j : BitVec 6, alpha i = alpha j :=
  ⟨⟨[0x00#8], 0x41#8, by decide⟩, ⟨63#6, 63#6, rfl⟩⟩

theorem witness_PiecewiseTextsJoin : ∃ pieces : List (List Byte), pieces ≠ [] ∧ ∀ p ∈ pieces, p.length % 3 = 0 :=
  ⟨[[1#8, 2#8, 3#8], []], by decide⟩

theorem witness_AdrByteReceivesOneByte :
    (∃ s : State, s.err = 0#3 ∧ s.pos = 0#6) ∧ (∃ s : State, s.err = 0#3 ∧ s.pos.toNat = 1) ∧
    (∃ s : State, s.err = 0#3 ∧ s.pos.toNat = 33) ∧ ∃ s : State, s.err = 0#3 ∧ s.pos.toNat = 34 :=
  ⟨⟨base, by decide⟩, ⟨{ base with pos := 1#6 }, by decide⟩, ⟨{ base with pos := 33#6 }, by decide⟩, ⟨recordA1, by decide⟩⟩

theorem witness_AdrEndBuildsTheAddress :
    (∃ s : State, s.err = 0#3 ∧ s.pos.toNat = 33) ∧ (∃ s : State, s.err = 0#3 ∧ s.pos.toNat = 34 ∧ s.tag ≠ 0x43#8) ∧
    (∃ s : State, s.err = 0#3 ∧ s.pos.toNat = 34 ∧ s.tag = 0x43#8) ∧ ∃ a : Nat, a ≠ 34 ∧ a ≠ 35 ∧ a = 33 :=
  ⟨⟨{ base with pos := 33#6 }, by decide⟩, ⟨{ recordA1 with tag := 0x44#8 }, by decide⟩, ⟨recordA1, by decide⟩,
    ⟨33, by decide⟩⟩

theorem witness_RecordBytesLandInTheirCells : ∃ (s : State) (raw : List Byte) (k : Nat), s.err = 0#3 ∧ s.pos = 0#6 ∧
    raw ≠ [] ∧ k < raw.length ∧ 1 ≤ k ∧ k = 33 := ⟨base, List.replicate 35 1#8, 33, by decide⟩

theorem witness_WorkchainByteKeepsItsSign : ∃ s : State, s.err = 0#3 ∧ s.pos = 1#6 := ⟨{ base with pos := 1#6 }, by decide⟩

theorem witness_ConversionComputesConvert : (∃ s : State, s.err = 0#3 ∧ s.pos = 0#6) ∧
    (∃ raw, convert raw = .error (.malformedInput 33)) ∧ (∃ raw, convert raw = .error (.unsupportedTag 0x44#8)) ∧
    ∃ raw text, convert raw = .ok text :=
  ⟨⟨base, by decide⟩, ⟨List.replicate 33 0x43#8, by decide⟩, ⟨0x44#8 :: List.replicate 33 0x00#8, by decide⟩,
    ⟨0x43#8 :: List.replicate 33 0x00#8, _, rfl⟩⟩

theorem witness_TailIsIgnoredAndLeadingZeroIsTheTag :
    (∃ raw : List Byte, 34 ≤ raw.length ∧ raw.length = 34) ∧ ∃ rest : List Byte, 33 ≤ rest.length ∧ rest.length = 33 :=
  ⟨⟨List.replicate 34 0#8, by decide⟩, ⟨List.replicate 33 0#8, by decide⟩⟩

theorem witness_FaultsSpeakTheDocumentsWords :
    (∃ s : State, s.err = 1#3) ∧ (∃ s : State, s.err = 2#3) ∧ (∃ s : State, s.err ≠ 1#3 ∧ s.err ≠ 2#3 ∧ s.err = 3#3) ∧
    ∃ i s t, State.documentError s = none ∧ exec i s = .next t ∧ t.documentError ≠ none :=
  ⟨⟨{ base with err := 1#3 }, rfl⟩, ⟨{ base with err := 2#3 }, rfl⟩, ⟨{ base with err := 3#3 }, by decide⟩,
    ⟨.adrEnd, base, _, rfl, rfl, by decide⟩⟩

end Sys2Proof.Tests
end

