-- ==== Sys2Proof/Proofs/ResetAndIdle.lean ====
section
/-! PROOFS. The two events of a step that are no command: the platform's reset (R200) and idling (R9, R189). -/

namespace Sys2Proof.Machine

theorem State.nextEvent_nil {s : State} (h : s.input = []) : s.nextEvent = none := by
  simp [State.nextEvent, h]

/-- Only the events still to come survive a reset, so nothing else of the state before it is seen in the result. -/
theorem step_of_reset {s : State} {rest : List HostEvent} (h : s.input = .reset :: rest) :
    step s = .next { State.reset with input := rest } := by
  rw [step, State.nextEvent_cons h]
  rfl

theorem step_of_no_event {s : State} (h : s.input = []) : step s = .next s := by
  rw [step, State.nextEvent_nil h]

/-- Settles O8: one equation of the step function for each of the two events. -/
theorem resetResetsAndIdleKeeps : Obligations.ResetResetsAndIdleKeeps :=
  ⟨fun _ _ => step_of_reset, fun _ => step_of_no_event⟩

end Sys2Proof.Machine
end

section
/-! SUPPORT. Everything a command that runs through can have done, said once and from any state, the ones that never occur
included (log entry 4). The statements about who changes what and about what every step keeps are read off it. -/

namespace Sys2Proof.Machine

/-! ## The bits waiting in the current group (R25) -/

/-- The invariant of R25 over the two registers it speaks of. -/
structure BitsLegal (ph : BitVec 2) (acc : BitVec 4) : Prop where
  phase : ph ≠ 3#2
  phase0 : ph = 0#2 → acc = 0#4
  phase1 : ph = 1#2 → acc.extractLsb 3 2 = 0#2

theorem bitsLegal_between_groups : BitsLegal 0#2 0#4 := ⟨by decide, fun _ => rfl, by decide⟩

theorem bitsLegal_two_waiting (x : BitVec 2) : BitsLegal 1#2 (0b00#2 ++ x) :=
  ⟨by decide, by simp, fun _ => by revert x; decide⟩

theorem bitsLegal_four_waiting (x : BitVec 4) : BitsLegal 2#2 x := ⟨by decide, by simp, by simp⟩

/-! ## Characters appended to the text (R133) -/

theorem inAlphabet_alpha : ∀ i : BitVec 6, inAlphabet (alpha i) = true := by decide

theorem Memory.writeAll_append (m : Memory) (a : Nat) (cs ds : List Byte) :
    m.writeAll a (cs ++ ds) = (m.writeAll a cs).writeAll (a + cs.length) ds := by
  induction cs generalizing m a with
  | nil => rfl
  | cons c cs ih =>
    rw [List.cons_append, Memory.writeAll, Memory.writeAll, ih, List.length_cons, Nat.add_right_comm, Nat.add_assoc]

/-- The characters `cs` written from `TXT[TLEN]` up, and `TLEN` past them. -/
def State.appendChars (s : State) (cs : List Byte) : State :=
  { s with txt := s.txt.writeAll s.tlen.toNat cs, tlen := s.tlen + BitVec.ofNat 6 cs.length }

theorem State.appendChars_tlen {s : State} {cs : List Byte} (h : s.tlen.toNat + cs.length ≤ 48) :
    (s.appendChars cs).tlen.toNat = s.tlen.toNat + cs.length := by
  show (s.tlen + BitVec.ofNat 6 cs.length).toNat = _
  rw [BitVec.toNat_add, BitVec.toNat_ofNat]
  omega

theorem State.appendChars_append {s : State} {cs : List Byte} (h : s.tlen.toNat + cs.length ≤ 48) (ds : List Byte) :
    (s.appendChars cs).appendChars ds = s.appendChars (cs ++ ds) := by
  rw [State.appendChars, State.appendChars_tlen h]
  simp [State.appendChars, Memory.writeAll_append, BitVec.ofNat_add, BitVec.add_assoc]

/-- `t` is `s` after some characters: they fit and are of the alphabet, `PH` and `ACC` end legal, and nothing else has
changed. -/
def Appended (s t : State) : Prop :=
  ∃ (cs : List Byte) (ph : BitVec 2) (acc : BitVec 4), s.tlen.toNat + cs.length ≤ 48 ∧ (∀ c ∈ cs, inAlphabet c = true) ∧
    BitsLegal ph acc ∧ t = { s.appendChars cs with ph := ph, acc := acc }

theorem Appended.trans {s t u : State} (hst : Appended s t) (htu : Appended t u) : Appended s u := by
  obtain ⟨cs, p, a, hfit, halpha, -, rfl⟩ := hst
  obtain ⟨ds, q, c, hfit', halpha', hlegal, rfl⟩ := htu
  have htlen := State.appendChars_tlen hfit
  refine ⟨cs ++ ds, q, c, ?_, fun x hx => ?_, hlegal, ?_⟩
  · simp only [htlen] at hfit'
    simp only [List.length_append]
    omega
  · exact (List.mem_append.mp hx).elim (halpha x) (halpha' x)
  · rw [← State.appendChars_append hfit]
    rfl

theorem emit_appendChars {i : BitVec 6} {s t : State} (h : emit i s = .ok t) :
    s.tlen.toNat + 1 ≤ 48 ∧ t = s.appendChars [alpha i] :=
  emit_ok_iff.mp h

/-- One character, whatever is then put in `PH` and `ACC`. -/
theorem appended_of_emit {i : BitVec 6} {s t : State} {ph : BitVec 2} {acc : BitVec 4} (h : emit i s = .ok t)
    (hlegal : BitsLegal ph acc) : Appended s { t with acc := acc, ph := ph } := by
  obtain ⟨hfit, rfl⟩ := emit_appendChars h
  exact ⟨[alpha i], ph, acc, hfit, by simp [inAlphabet_alpha], hlegal, rfl⟩

theorem except_bind_ok {α β ε : Type} {x : Except ε α} {f : α → Except ε β} {b : β} (h : x >>= f = .ok b) :
    ∃ a, x = .ok a ∧ f a = .ok b := by
  cases x with
  | ok a => exact ⟨a, rfl, h⟩
  | error e => cases h

/-- `b64_push` from any phase: one character, or two where it ends a group (R133). -/
theorem appended_of_b64Push {b : Byte} {s t : State} (h : b64Push b s = .ok t) : Appended s t := by
  unfold b64Push at h
  split at h
  · obtain ⟨u, hu, h⟩ := except_bind_ok h
    cases h
    exact appended_of_emit hu (bitsLegal_two_waiting _)
  · split at h
    · obtain ⟨u, hu, h⟩ := except_bind_ok h
      cases h
      exact appended_of_emit hu (bitsLegal_four_waiting _)
    · obtain ⟨u, hu, h⟩ := except_bind_ok h
      obtain ⟨v, hv, h⟩ := except_bind_ok h
      cases h
      obtain ⟨hfit, rfl⟩ := emit_appendChars hu
      obtain ⟨hfit', rfl⟩ := emit_appendChars hv
      rw [State.appendChars_tlen hfit] at hfit'
      rw [State.appendChars_append hfit]
      refine ⟨_, 0#2, 0#4, ?_, ?_, bitsLegal_between_groups, rfl⟩
      · exact hfit'
      · simp [inAlphabet_alpha]

theorem appended_of_b64PushAll {b : Byte} {bs : List Byte} {s t : State} (h : b64PushAll (b :: bs) s = .ok t) :
    Appended s t := by
  induction bs generalizing b s with
  | nil =>
    obtain ⟨u, hu, h⟩ := except_bind_ok h
    cases h
    exact appended_of_b64Push hu
  | cons c bs ih =>
    obtain ⟨u, hu, h⟩ := except_bind_ok h
    exact (appended_of_b64Push hu).trans (ih h)

/-- The flush of the last group, from any phase: one character or none (R137). -/
theorem appended_of_b64Flush {s t : State} (hs : s.tlen.toNat ≤ 48) (h : b64Flush s = .ok t) : Appended s t := by
  unfold b64Flush at h
  split at h
  · obtain ⟨u, hu, h⟩ := except_bind_ok h
    cases h
    exact appended_of_emit hu bitsLegal_between_groups
  · split at h
    · obtain ⟨u, hu, h⟩ := except_bind_ok h
      cases h
      exact appended_of_emit hu bitsLegal_between_groups
    · cases h
      exact ⟨[], 0#2, 0#4, hs, by simp, bitsLegal_between_groups, by simp [State.appendChars, Memory.writeAll]⟩

/-! ## The effect of a command -/

/-- The three commands that append to the text (R134). -/
def AppendsText (i : Instr) : Prop := (∃ b, i = .b64Push b) ∨ i = .b64End ∨ i = .crcEmit

/-- The three commands that read (R33). -/
def ReadsState (i : Instr) : Prop := (∃ n, i = .rdr n) ∨ (∃ a, i = .rde a) ∨ ∃ a, i = .rdt a

/-- The state after a byte of a record (R151): the tag, a cell of `EA`, or, from byte 34 on, nowhere. -/
def State.received (s : State) (b : Byte) : State :=
  { s with
    tag := if s.pos = 0#6 then b else s.tag
    ea := if s.pos ≠ 0#6 ∧ s.pos.toNat ≤ 33 then s.ea.write s.pos.toNat b else s.ea
    pos := nextPos s.pos, done := false }

/-- The state after the conversion of an accepted record (R152), for its checksum `k` and the characters of its text. -/
def State.withResult (s : State) (k : Word) (text : List Byte) : State :=
  { s with
    crc := k, ea := (s.ea.write 34 (highByte k)).write 35 (lowByte k), txt := Memory.writeAll [] 0 text
    tlen := 48#6, ph := 0#2, acc := 0#4, pos := 0#6, done := true }

/-- What a command can do to the state `s`, with the condition under which it does so. -/
inductive Effect (s : State) : Instr → State → Prop where
  /-- Behind the gate in the fault state, or an ill-formed term there (R80). -/
  | discarded {i : Instr} (hf : s.err ≠ 0#3) (hi : i ≠ .init) : Effect s i s
  | reset : Effect s .init s.toReset
  | responded {i : Instr} (hi : ReadsState i) (hw : i.wellFormed = true) (w : Word) : Effect s i (s.respond w)
  | illegal {i : Instr} (hr : s.err = 0#3) (hw : i.wellFormed = false) (op : Byte) :
      Effect s i (s.raiseFault .illegalCommand op)
  | crcSet {i : Instr} (hr : s.err = 0#3) (hi : i = .crcClr ∨ ∃ b, i = .crcUpd b) (c : Word) :
      Effect s i { s with crc := c }
  | textCleared (hr : s.err = 0#3) : Effect s .b64Clr { s.clearText with done := false }
  | appended {i : Instr} (hr : s.err = 0#3) (hi : AppendsText i) (cs : List Byte) (ph : BitVec 2) (acc : BitVec 4)
      (hfit : s.tlen.toNat + cs.length ≤ 48) (halpha : ∀ c ∈ cs, inAlphabet c = true) (hlegal : BitsLegal ph acc) :
      Effect s i { s.appendChars cs with ph := ph, acc := acc, done := false }
  | overflowed {i : Instr} (hr : s.err = 0#3) (hi : AppendsText i) (ho : 46 ≤ s.tlen.toNat) :
      Effect s i (s.raiseFault .txtOverflow (s.tlen.setWidth 8))
  | received (hr : s.err = 0#3) (b : Byte) : Effect s (.adrByte b) (s.received b)
  | tooShort (hr : s.err = 0#3) (hp : s.pos.toNat < 34) :
      Effect s .adrEnd (s.raiseFault .malformedInput (s.pos.setWidth 8))
  | wrongTag (hr : s.err = 0#3) (hp : 34 ≤ s.pos.toNat) (ht : s.tag ≠ tagStd) :
      Effect s .adrEnd (s.raiseFault .unsupportedTag s.tag)
  | converted (hr : s.err = 0#3) (hp : 34 ≤ s.pos.toNat) (ht : s.tag = tagStd) (k : Word)
      (hk : k = crcSeq (s.bytes .ea 0 34)) (text : List Byte)
      (htext : text = b64url (withChecksum (s.bytes .ea 0 34))) : Effect s .adrEnd (s.withResult k text)

/-- An illegal word's own path, taken by an ill-formed term. -/
theorem effect_of_illegalCommand {i : Instr} {s t : State} {op : Byte} (hi : i ≠ .init) (hw : i.wellFormed = false)
    (h : s.illegalCommand op = .next t) : Effect s i t := by
  obtain ⟨hf, rfl⟩ | ⟨hr, rfl⟩ := State.illegalCommand_next_iff.mp h
  · exact .discarded hf hi
  · exact .illegal hr hw op

/-- Every call of `State.appending` is for 3 characters at most, so its overflow test fails from 46 on only. -/
theorem effect_of_appending {i : Instr} {s t : State} {n : Nat} {work : State → Except Fault State} (hi : AppendsText i)
    (hn : n ≤ 3) (hwork : ∀ s t : State, s.tlen.toNat ≤ 48 → work s = .ok t → Appended s t)
    (h : s.appending n work = .next t) : Effect s i t := by
  obtain ⟨hf, rfl⟩ | ⟨hr, ho, rfl⟩ | ⟨hr, hfit, hok⟩ := State.appending_next_iff.mp h
  · exact .discarded hf (by rintro rfl; simp [AppendsText] at hi)
  · exact .overflowed hr hi (by omega)
  · obtain ⟨cs, ph, acc, hfit, halpha, hlegal, rfl⟩ := hwork { s with done := false } t (Nat.le_of_add_right_le hfit) hok
    exact .appended hr hi cs ph acc hfit halpha hlegal

theorem nchars_one_le (ph : Nat) : nchars ph 1 ≤ 3 := by
  rw [nchars_one]
  split <;> omega

theorem nchars_two_le (ph : Nat) : nchars ph 2 ≤ 3 := by
  rw [nchars_step, nchars_one]
  split <;> split <;> omega

theorem exec_adrByte_received {s : State} (hr : s.err = 0#3) (b : Byte) :
    exec (.adrByte b) s = .next (s.received b) := by
  rw [exec_adrByte hr, State.received]
  by_cases h0 : s.pos = 0#6
  · simp [h0]
  · by_cases h33 : s.pos.toNat ≤ 33 <;> simp [h0, h33]

theorem exec_adrByte_faulted {s : State} (hf : s.err ≠ 0#3) (b : Byte) : exec (.adrByte b) s = .next s :=
  State.gate_faulted hf _

theorem exec_adrEnd_faulted {s : State} (hf : s.err ≠ 0#3) : exec .adrEnd s = .next s := State.gate_faulted hf _

theorem effect_of_adrEnd {s t : State} (h : exec .adrEnd s = .next t) : Effect s .adrEnd t := by
  by_cases hr : s.err = 0#3
  · by_cases hp : s.pos.toNat < 34
    · rw [exec_adrEnd_short hr hp] at h
      cases h
      exact .tooShort hr hp
    · by_cases ht : s.tag = tagStd
      · rw [exec_adrEnd_accepted hr hp ht] at h
        cases h
        exact .converted hr (Nat.le_of_not_lt hp) ht _ rfl _ rfl
      · rw [exec_adrEnd_wrongTag hr hp ht] at h
        cases h
        exact .wrongTag hr (Nat.le_of_not_lt hp) ht
  · rw [exec_adrEnd_faulted hr] at h
    cases h
    exact .discarded hr (by decide)

theorem effect_of_rdr {n : Byte} {s t : State} (h : exec (.rdr n) s = .next t) : Effect s (.rdr n) t := by
  rw [exec_rdr] at h
  have hlt : statusNumber n = none ↔ ¬ n.toNat < csrCount := (statusNumber_none_iff n).trans Nat.not_lt.symm
  cases hw : statusNumber n with
  | none =>
    rw [hw] at h
    exact effect_of_illegalCommand (by simp) (decide_eq_false (hlt.mp hw)) h
  | some w =>
    rw [hw] at h
    cases h
    have hn : n.toNat < csrCount := by
      by_contra hge
      rw [hlt.mpr hge] at hw
      cases hw
    exact .responded (.inl ⟨n, rfl⟩) (decide_eq_true hn) _

theorem effect_of_rde {a : Byte} {s t : State} (h : exec (.rde a) s = .next t) : Effect s (.rde a) t := by
  by_cases ha : a.toNat < 36
  · rw [exec_rde_ok ha] at h
    cases h
    exact .responded (.inr (.inl ⟨a, rfl⟩)) (decide_eq_true ha) _
  · rw [exec_rde_past ha] at h
    exact effect_of_illegalCommand (by simp) (decide_eq_false ha) h

theorem effect_of_rdt {a : Byte} {s t : State} (h : exec (.rdt a) s = .next t) : Effect s (.rdt a) t := by
  by_cases ha : a.toNat < 48
  · rw [exec_rdt_ok ha] at h
    cases h
    exact .responded (.inr (.inr ⟨a, rfl⟩)) (decide_eq_true ha) _
  · rw [exec_rdt_past ha] at h
    exact effect_of_illegalCommand (by simp) (decide_eq_false ha) h

/-- A command behind the gate, outside it by one equation. -/
theorem effect_of_gate {i : Instr} {s t u : State} (hi : i ≠ .init) (hu : s.err = 0#3 → Effect s i u)
    (h : s.gate (.next u) = .next t) : Effect s i t := by
  obtain ⟨hf, rfl⟩ | ⟨hr, h⟩ := State.gate_next_iff.mp h
  · exact .discarded hf hi
  · cases h
    exact hu hr

/-- A command that runs through has one of the effects, whatever the state. -/
theorem effect_of_exec {i : Instr} {s t : State} (h : exec i s = .next t) : Effect s i t := by
  cases i with
  | init => cases h; exact .reset
  | crcClr => exact effect_of_gate (by simp) (fun hr => .crcSet hr (.inl rfl) _) h
  | crcUpd b => exact effect_of_gate (by simp) (fun hr => .crcSet hr (.inr ⟨b, rfl⟩) _) h
  | crcEmit =>
    exact effect_of_appending (.inr (.inr rfl)) (nchars_two_le _) (fun _ _ _ => appended_of_b64PushAll) h
  | b64Clr => exact effect_of_gate (by simp) .textCleared h
  | b64Push b => exact effect_of_appending (.inl ⟨b, rfl⟩) (nchars_one_le _) (fun _ _ _ => appended_of_b64Push) h
  | b64End => exact effect_of_appending (.inr (.inl rfl)) (by split <;> omega) (fun _ _ => appended_of_b64Flush) h
  | adrByte b =>
    by_cases hr : s.err = 0#3
    · rw [exec_adrByte_received hr] at h
      cases h
      exact .received hr b
    · rw [exec_adrByte_faulted hr] at h
      cases h
      exact .discarded hr (by simp)
  | adrEnd => exact effect_of_adrEnd h
  | rdr n => exact effect_of_rdr h
  | rde a => exact effect_of_rde h
  | rdt a => exact effect_of_rdt h

end Sys2Proof.Machine
end

section
/-! PROOFS. What every step keeps (R25 to R27, R29, R30, Table X1), read off the effects of the commands. -/

namespace Sys2Proof.Machine

/-- What does not speak of the events still to come, and every effect of a command keeps, every step keeps: a platform's
reset does what `INIT` does, and an illegal word what an ill-formed term does. -/
theorem step_keeps {P : State → Prop} (hinput : ∀ (s : State) (evs : List HostEvent), P s → P { s with input := evs })
    (heffect : ∀ (s : State) (i : Instr) (t : State), P s → Effect s i t → P t) {s t : State} (hs : P s)
    (h : step s = .next t) : P t := by
  obtain ⟨-, hidle⟩ | ⟨rest, -, hreset⟩ | ⟨w, rest, i, -, -, hexec⟩ | ⟨w, rest, e, -, -, hillegal⟩ := step_cases s
  · rw [hidle] at h
    cases h
    exact hs
  · rw [hreset] at h
    cases h
    exact heffect _ .init _ (hinput s rest hs) .reset
  · rw [hexec] at h
    exact heffect _ i t (hinput s rest hs) (effect_of_exec h)
  · rw [hillegal] at h
    exact heffect _ (.rdr 4#8) t (hinput s rest hs) (effect_of_illegalCommand (by simp) rfl h)

/-! ## The phase and the accumulator (R25) -/

theorem Effect.bitsLegal {s t : State} {i : Instr} (hs : BitsLegal s.ph s.acc) (h : Effect s i t) :
    BitsLegal t.ph t.acc := by
  cases h with
  | reset => exact bitsLegal_between_groups
  | textCleared => exact bitsLegal_between_groups
  | converted => exact bitsLegal_between_groups
  | appended _ _ _ _ _ _ _ hlegal => exact hlegal
  | _ => exact hs

/-- Settles O13: each effect that writes `PH` and `ACC` leaves a legal pair there. -/
theorem phaseAndAccumulatorStayLegal : Obligations.PhaseAndAccumulatorStayLegal := by
  refine ⟨⟨by decide, fun _ => rfl, by decide⟩, fun s t hph hacc0 hacc1 h => ?_⟩
  obtain ⟨hph', hacc0', hacc1'⟩ :=
    step_keeps (P := fun u => BitsLegal u.ph u.acc) (fun _ _ hu => hu) (fun _ _ _ => Effect.bitsLegal)
      ⟨hph, hacc0, hacc1⟩ h
  exact ⟨hph', hacc0', hacc1'⟩

/-! ## What `DONE` vouches for (R29) -/

/-- Without a result there is nothing to vouch for. -/
theorem doneVouches_of_not_done {s : State} (h : s.done = false) : s.DoneVouches := by
  intro hd
  rw [h] at hd
  cases hd

/-- `DONE` does not vouch for the checksum register, the response register or the events still to come. -/
theorem State.DoneVouches.of_unwatched {s : State} (h : s.DoneVouches) (c r : Word) (evs : List HostEvent) :
    ({ s with crc := c, resp := r, input := evs } : State).DoneVouches := h

theorem b64url_length_of_groups {bs : List Byte} (h : bs.length % 3 = 0) : (b64url bs).length = nchars 0 bs.length := by
  obtain ⟨htext, -, -⟩ := stream_whole_groups h
  rw [← htext]
  exact streamText_length (by decide) 0#4 bs

/-- The text of an EncodedAddress: 48 characters (R139). -/
theorem b64url_withChecksum_length {bs : List Byte} (h : bs.length = 34) : (b64url (withChecksum bs)).length = 48 := by
  have hlen : (withChecksum bs).length = 36 := by simp [withChecksum, h]
  rw [b64url_length_of_groups (by rw [hlen]), hlen]
  decide

/-- The checksum is stored past the bytes it is taken of. -/
theorem State.withResult_bytes_ea (s : State) (k : Word) (text : List Byte) :
    (s.withResult k text).bytes .ea 0 34 = s.bytes .ea 0 34 := by
  refine List.ext_getElem (by simp) fun n hn _ => ?_
  simp only [State.bytes_length] at hn
  simp only [State.bytes_getElem, State.memRead, State.withResult]
  rw [Memory.read_write_other _ _ (by omega), Memory.read_write_other _ _ (by omega)]

theorem State.withResult_bytes_txt (s : State) (k : Word) {text : List Byte} (hlen : text.length = 48) :
    (s.withResult k text).bytes .txt 0 48 = text := by
  refine List.ext_getElem (by simp [hlen]) fun n _ hn => ?_
  simp only [State.bytes_getElem, State.memRead, State.withResult, Memory.read_writeAll]
  simp [hn]

/-- A conversion that went through leaves what R29 says. -/
theorem doneVouches_withResult {s : State} (hr : s.err = 0#3) (ht : s.tag = tagStd) {k : Word}
    (hk : k = crcSeq (s.bytes .ea 0 34)) {text : List Byte} (htext : text = b64url (withChecksum (s.bytes .ea 0 34))) :
    (s.withResult k text).DoneVouches := by
  intro _
  have hlen : text.length = 48 := by rw [htext, b64url_withChecksum_length (s.bytes_length .ea 0 34)]
  refine ⟨hr, ht, rfl, rfl, rfl, rfl, ?_, ?_⟩
  · rw [State.withResult_bytes_ea, ← hk]
    simp [State.memRead, State.withResult, Memory.read_write]
  · rw [State.withResult_bytes_txt s k hlen, State.bytes_with_checksum (s := s) k rfl, htext, withChecksum, ← hk]

theorem Effect.doneVouches {s t : State} {i : Instr} (hs : s.DoneVouches) (h : Effect s i t) : t.DoneVouches := by
  cases h with
  | discarded => exact hs
  | responded _ _ w => exact hs.of_unwatched s.crc w s.input
  | crcSet _ _ c => exact hs.of_unwatched c s.resp s.input
  | converted hr _ ht k hk text htext => exact doneVouches_withResult hr ht hk htext
  | _ => exact doneVouches_of_not_done rfl

/-- Settles O14: a step that leaves `DONE` set either converted a record or changed nothing `DONE` vouches for. -/
theorem doneAlwaysVouchesForTheResult : Obligations.DoneAlwaysVouchesForTheResult :=
  fun _ _ hs h =>
    step_keeps (fun s evs hs => hs.of_unwatched s.crc s.resp evs) (fun _ _ _ => Effect.doneVouches) hs h

/-! ## The text (R26) -/

/-- R26 and the canonical form, over the length `n` and the cells of the text. -/
structure TextLegal (n : Nat) (m : Memory) : Prop where
  len_le : n ≤ 48
  filled : ∀ a, a < n → inAlphabet (Memory.read m a) = true
  blank : ∀ a, n ≤ a → Memory.read m a = blankByte
  canonical : Memory.wf .txt m = true

theorem textLegal_empty : TextLegal 0 [] := ⟨by decide, fun _ ha => absurd ha (Nat.not_lt_zero _), fun _ _ => rfl, rfl⟩

theorem TextLegal.writeAll {n : Nat} {m : Memory} {cs : List Byte} (h : TextLegal n m) (hfit : n + cs.length ≤ 48)
    (halpha : ∀ c ∈ cs, inAlphabet c = true) : TextLegal (n + cs.length) (m.writeAll n cs) where
  len_le := hfit
  filled a ha := by
    rw [Memory.read_writeAll]
    split
    · exact halpha _ (List.getElem_mem _)
    · exact h.filled a (by omega)
  blank a ha := by
    rw [Memory.read_writeAll, dif_neg (by omega)]
    exact h.blank a (by omega)
  canonical := Memory.wf_writeAll h.canonical hfit

theorem inAlphabet_of_mem_b64url {bs : List Byte} : ∀ c ∈ b64url bs, inAlphabet c = true := by
  induction bs using b64url.induct with
  | case1 => simp [b64url]
  | case2 b0 => simp [b64url, inAlphabet_alpha]
  | case3 b0 b1 => simp [b64url, inAlphabet_alpha]
  | case4 b0 b1 b2 rest ih => simpa [b64url, inAlphabet_alpha] using ih

/-! ## The invariant of the whole state -/

theorem State.Inv.bitsLegal {s : State} (h : s.Inv) : BitsLegal s.ph s.acc := ⟨h.ph_legal, h.acc_phase0, h.acc_phase1⟩

theorem State.Inv.textLegal {s : State} (h : s.Inv) : TextLegal s.tlen.toNat s.txt :=
  ⟨h.tlen_le, h.txt_filled, h.txt_blank, h.txt_wf⟩

/-- Outside the fault state the invariant is that of its parts: nothing is latched. -/
theorem inv_of_running {s : State} (herr : s.err = 0#3) (hinfo : s.errInfo = 0x00#8) (hbits : BitsLegal s.ph s.acc)
    (htext : TextLegal s.tlen.toNat s.txt) (hpos : s.pos.toNat ≤ 34) (hea : Memory.wf .ea s.ea = true) : s.Inv where
  ph_legal := hbits.phase
  acc_phase0 := hbits.phase0
  acc_phase1 := hbits.phase1
  tlen_le := htext.len_le
  txt_filled := htext.filled
  txt_blank := htext.blank
  pos_le := hpos
  err_le := by simp [herr]
  no_fault _ := hinfo
  fault_not_done h := absurd herr h
  malformed h := by simp [herr] at h
  wrong_tag h := by simp [herr] at h
  overflow h := by simp [herr] at h
  txt_wf := htext.canonical
  ea_wf := hea

theorem FaultCode.code_le (c : FaultCode) : c.code.toNat ≤ 4 := by cases c <;> decide

/-- A code is latched for one fault only: the fault can be read back off it. -/
theorem FaultCode.code_injective {c d : FaultCode} (h : c.code = d.code) : c = d := by
  have hlatched : (State.reset.raiseFault c 0).latchedFault = (State.reset.raiseFault d 0).latchedFault := by
    simp only [State.latchedFault, State.raiseFault_err, h]
  simpa using hlatched

/-- Fault entry keeps the invariant when the context byte is the one Table X1 gives with the code. -/
theorem State.Inv.raiseFault {s : State} (h : s.Inv) {c : FaultCode} {info : Byte}
    (hmalformed : c = .malformedInput → s.pos.toNat < 34 ∧ info = s.pos.setWidth 8)
    (htag : c = .unsupportedTag → s.pos.toNat = 34 ∧ s.tag ≠ tagStd ∧ info = s.tag)
    (hoverflow : c = .txtOverflow → 46 ≤ s.tlen.toNat ∧ info = s.tlen.setWidth 8) : (s.raiseFault c info).Inv where
  ph_legal := h.ph_legal
  acc_phase0 := h.acc_phase0
  acc_phase1 := h.acc_phase1
  tlen_le := h.tlen_le
  txt_filled := h.txt_filled
  txt_blank := h.txt_blank
  pos_le := h.pos_le
  err_le := c.code_le
  no_fault hc := absurd hc c.code_ne_zero
  fault_not_done _ := rfl
  malformed hc := hmalformed (FaultCode.code_injective hc)
  wrong_tag hc := htag (FaultCode.code_injective hc)
  overflow hc := hoverflow (FaultCode.code_injective hc)
  txt_wf := h.txt_wf
  ea_wf := h.ea_wf

/-- The invariant does not speak of the checksum register, the response register or the events still to come. -/
theorem State.Inv.of_unwatched {s : State} (h : s.Inv) (c r : Word) (evs : List HostEvent) :
    ({ s with crc := c, resp := r, input := evs } : State).Inv := { h with }

theorem inv_reset : State.reset.Inv :=
  inv_of_running rfl rfl bitsLegal_between_groups textLegal_empty (by decide) rfl

/-- Settles O15: nothing is latched, the text is empty, and there is no result. -/
theorem resetMeetsTheInvariants : Obligations.ResetMeetsTheInvariants := ⟨inv_reset, doneVouches_of_not_done rfl⟩

theorem State.Inv.received {s : State} (h : s.Inv) (hr : s.err = 0#3) (b : Byte) : (s.received b).Inv := by
  refine inv_of_running hr (h.no_fault hr) h.bitsLegal h.textLegal ?_ ?_
  · show (nextPos s.pos).toNat ≤ 34
    rw [nextPos_toNat]
    exact min_le_right _ _
  · show Memory.wf .ea (if s.pos ≠ 0#6 ∧ s.pos.toNat ≤ 33 then s.ea.write s.pos.toNat b else s.ea) = true
    split
    · rename_i hcell
      obtain ⟨h0, h33⟩ := hcell
      have hpos : s.pos.toNat ≠ 0 := fun h => h0 (BitVec.eq_of_toNat_eq h)
      exact Memory.wf_write (decide_eq_true ⟨Nat.pos_of_ne_zero hpos, Nat.lt_of_le_of_lt h33 (by decide)⟩) h.ea_wf
    · exact h.ea_wf

theorem State.Inv.withResult {s : State} (h : s.Inv) (hr : s.err = 0#3) (k : Word) {bs : List Byte}
    (hlen : bs.length = 34) : (s.withResult k (b64url (withChecksum bs))).Inv := by
  refine inv_of_running hr (h.no_fault hr) bitsLegal_between_groups ?_ (Nat.zero_le _) ?_
  · have hfit := b64url_withChecksum_length hlen
    have htext := textLegal_empty.writeAll (by rw [hfit]) (inAlphabet_of_mem_b64url (bs := withChecksum bs))
    rwa [hfit] at htext
  · exact Memory.wf_write rfl (Memory.wf_write rfl h.ea_wf)

theorem Effect.inv {s t : State} {i : Instr} (hs : s.Inv) (h : Effect s i t) : t.Inv := by
  cases h with
  | discarded => exact hs
  | reset => exact inv_reset.of_unwatched _ _ s.input
  | responded _ _ w => exact hs.of_unwatched s.crc w s.input
  | illegal => exact hs.raiseFault (by simp) (by simp) (by simp)
  | crcSet _ _ c => exact hs.of_unwatched c s.resp s.input
  | textCleared hr =>
    exact inv_of_running hr (hs.no_fault hr) bitsLegal_between_groups textLegal_empty hs.pos_le hs.ea_wf
  | appended hr _ cs ph acc hfit halpha hlegal =>
    refine inv_of_running hr (hs.no_fault hr) hlegal ?_ hs.pos_le hs.ea_wf
    show TextLegal (s.appendChars cs).tlen.toNat (s.txt.writeAll s.tlen.toNat cs)
    rw [State.appendChars_tlen hfit]
    exact hs.textLegal.writeAll hfit halpha
  | overflowed _ _ ho => exact hs.raiseFault (by simp) (by simp) fun _ => ⟨ho, rfl⟩
  | received hr b => exact hs.received hr b
  | tooShort _ hp => exact hs.raiseFault (fun _ => ⟨hp, rfl⟩) (by simp) (by simp)
  | wrongTag _ hp ht => exact hs.raiseFault (by simp) (fun _ => ⟨Nat.le_antisymm hs.pos_le hp, ht, rfl⟩) (by simp)
  | converted hr _ _ k _ text htext =>
    subst htext
    exact hs.withResult hr k (s.bytes_length .ea 0 34)

/-- Settles O12: each effect of a command keeps the invariant. -/
theorem stepKeepsTheStateInvariant : Obligations.StepKeepsTheStateInvariant :=
  fun _ _ hs h => step_keeps (fun s evs hs => hs.of_unwatched s.crc s.resp evs) (fun _ _ _ => Effect.inv) hs h

end Sys2Proof.Machine
end

section
/-! PROOFS. Who changes what: each register's writers (Table S1), `DONE` (R29), `RESP` (R33), read off the effects of the
commands. -/

namespace Sys2Proof.Machine

/-! ## The writers of each register (Table S1) -/

theorem Effect.crc_writer {s t : State} {i : Instr} (h : Effect s i t) (hne : t.crc ≠ s.crc) :
    i = .init ∨ i = .crcClr ∨ (∃ b, i = .crcUpd b) ∨ i = .adrEnd := by
  cases h with
  | reset => exact .inl rfl
  | crcSet _ hi => exact .inr (hi.imp_right .inl)
  | converted => exact .inr (.inr (.inr rfl))
  | _ => exact absurd rfl hne

theorem Effect.text_writer {s t : State} {i : Instr} (h : Effect s i t)
    (hne : t.acc ≠ s.acc ∨ t.ph ≠ s.ph ∨ t.tlen ≠ s.tlen) :
    i = .init ∨ i = .b64Clr ∨ (∃ b, i = .b64Push b) ∨ i = .b64End ∨ i = .crcEmit ∨ i = .adrEnd := by
  cases h with
  | reset => exact .inl rfl
  | textCleared => exact .inr (.inl rfl)
  | appended _ hi => exact .inr (.inr (hi.imp_right (Or.imp_right .inl)))
  | converted => exact .inr (.inr (.inr (.inr (.inr rfl))))
  | _ => rcases hne with h | h | h <;> exact absurd rfl h

theorem Effect.pos_writer {s t : State} {i : Instr} (h : Effect s i t) (hne : t.pos ≠ s.pos) :
    i = .init ∨ (∃ b, i = .adrByte b) ∨ i = .adrEnd := by
  cases h with
  | reset => exact .inl rfl
  | received _ b => exact .inr (.inl ⟨b, rfl⟩)
  | converted => exact .inr (.inr rfl)
  | _ => exact absurd rfl hne

theorem Effect.tag_writer {s t : State} {i : Instr} (h : Effect s i t) (hne : t.tag ≠ s.tag) :
    i = .init ∨ ((∃ b, i = .adrByte b) ∧ s.pos = 0#6) := by
  cases h with
  | reset => exact .inl rfl
  | received _ b => exact .inr ⟨⟨b, rfl⟩, by_contra fun hp => hne (if_neg hp)⟩
  | _ => exact absurd rfl hne

theorem Effect.resp_writer {s t : State} {i : Instr} (h : Effect s i t) (hne : t.resp ≠ s.resp) :
    i = .init ∨ (ReadsState i ∧ i.wellFormed = true) := by
  cases h with
  | reset => exact .inl rfl
  | responded hi hw => exact .inr ⟨hi, hw⟩
  | _ => exact absurd rfl hne

theorem Effect.done_writer {s t : State} {i : Instr} (h : Effect s i t) (hne : t.done ≠ s.done) :
    (t.done = true ∧ i = .adrEnd ∧ t.err = 0#3) ∨
    (t.done = false ∧ (i = .init ∨ (∃ b, i = .adrByte b) ∨ i = .b64Clr ∨ (∃ b, i = .b64Push b) ∨ i = .b64End ∨
      i = .crcEmit ∨ (s.err = 0#3 ∧ t.err ≠ 0#3))) := by
  cases h with
  | reset => exact .inr ⟨rfl, .inl rfl⟩
  | received _ b => exact .inr ⟨rfl, .inr (.inl ⟨b, rfl⟩)⟩
  | textCleared => exact .inr ⟨rfl, .inr (.inr (.inl rfl))⟩
  | appended _ hi => exact .inr ⟨rfl, .inr (.inr (.inr (hi.imp_right (Or.imp_right .inl))))⟩
  | converted hr => exact .inl ⟨rfl, rfl, hr⟩
  | illegal hr => exact .inr ⟨rfl, by simp [hr]⟩
  | overflowed hr => exact .inr ⟨rfl, by simp [hr]⟩
  | tooShort hr => exact .inr ⟨rfl, by simp [hr]⟩
  | wrongTag hr => exact .inr ⟨rfl, by simp [hr]⟩
  | _ => exact absurd rfl hne

theorem Effect.fault_writer {s t : State} {i : Instr} (h : Effect s i t)
    (hne : t.err ≠ s.err ∨ t.errInfo ≠ s.errInfo) :
    i = .init ∨ (s.err = 0#3 ∧ t.done = false ∧
      ((∃ b, i = .b64Push b) ∨ i = .b64End ∨ i = .crcEmit ∨ i = .adrEnd ∨ i.wellFormed = false)) := by
  cases h with
  | reset => exact .inl rfl
  | illegal hr hw => exact .inr ⟨hr, rfl, .inr (.inr (.inr (.inr hw)))⟩
  | overflowed hr hi => exact .inr ⟨hr, rfl, hi.imp_right (Or.imp_right .inl)⟩
  | tooShort hr => exact .inr ⟨hr, rfl, .inr (.inr (.inr (.inl rfl)))⟩
  | wrongTag hr => exact .inr ⟨hr, rfl, .inr (.inr (.inr (.inl rfl)))⟩
  | _ => rcases hne with h | h <;> exact absurd rfl h

/-- Settles O16: one lemma for each register's row of Table S1. -/
theorem registersChangeOnlyByTheirWriters : Obligations.RegistersChangeOnlyByTheirWriters := by
  intro i s t h
  have heffect := effect_of_exec h
  exact ⟨heffect.crc_writer, heffect.text_writer, heffect.pos_writer, heffect.tag_writer,
    fun hne => (heffect.resp_writer hne).imp_right And.left, heffect.done_writer, heffect.fault_writer⟩

/-! ## `DONE` (R29) -/

/-- Settles O18: outside the fault state the effects of a well-formed command say what becomes of `DONE`. -/
theorem doneFollowsTheCommand : Obligations.DoneFollowsTheCommand := by
  intro i s t hr hwf h
  cases effect_of_exec h with
  | discarded hf => exact absurd hr hf
  | illegal _ hw => rw [hwf] at hw; cases hw
  | reset => rfl
  | textCleared => rfl
  | received => rfl
  | responded hi => obtain ⟨n, rfl⟩ | ⟨a, rfl⟩ | ⟨a, rfl⟩ := hi <;> rfl
  | crcSet _ hi => obtain rfl | ⟨b, rfl⟩ := hi <;> rfl
  | appended _ hi => obtain ⟨b, rfl⟩ | rfl | rfl := hi <;> rfl
  | overflowed _ hi => obtain ⟨b, rfl⟩ | rfl | rfl := hi <;> rfl
  | tooShort => simp
  | wrongTag => simp
  | converted => exact iff_of_true rfl hr

/-! ## `RESP` (R33) -/

/-- The decoder drops no bit of the word: the two fields of what it gives are the word's own (R71, R74). -/
theorem fields_of_decode {w : Word} {i : Instr} (h : decode w = .ok i) :
    opField w = i.opcode ∧ immField w = i.operand := by
  unfold decode at h
  split at h
  case h_1 hop | h_2 hop | h_4 hop | h_5 hop | h_7 hop | h_9 hop =>
    obtain ⟨himm, rfl⟩ := decodeNoOperand_ok_iff.mp h
    exact ⟨BitVec.eq_of_toNat_eq hop, himm⟩
  case h_3 hop | h_6 hop | h_8 hop =>
    cases h
    exact ⟨BitVec.eq_of_toNat_eq hop, rfl⟩
  case h_10 hop | h_11 hop | h_12 hop =>
    obtain ⟨-, rfl⟩ := decodeNumber_ok_iff.mp h
    exact ⟨BitVec.eq_of_toNat_eq hop, rfl⟩
  case h_13 => cases h

theorem word_of_decode_init {w : Word} (h : decode w = .ok .init) : w = 0x0100#16 := by
  obtain ⟨hop, himm⟩ := fields_of_decode h
  rw [← commandOf_fields w, hop, himm]
  rfl

/-- The word of a well-formed read is legal and carries one of the three opcodes of the reads. -/
theorem legal_of_decode_reads {w : Word} {i : Instr} (h : decode w = .ok i) (hi : ReadsState i)
    (hw : i.wellFormed = true) : legal w = true ∧ opField w ∈ [0x80#8, 0x81#8, 0x82#8] := by
  obtain ⟨hop, himm⟩ := fields_of_decode h
  obtain ⟨n, rfl⟩ | ⟨a, rfl⟩ | ⟨a, rfl⟩ := hi <;> simp only [Instr.opcode, Instr.operand] at hop himm
  · have hlimit : n.toNat ≤ 3 := Nat.le_of_lt_succ (of_decide_eq_true hw)
    simp [legal, hop, himm, hlimit]
  · have hlimit : a.toNat ≤ 35 := Nat.le_of_lt_succ (of_decide_eq_true hw)
    simp [legal, hop, himm, hlimit]
  · have hlimit : a.toNat ≤ 47 := Nat.le_of_lt_succ (of_decide_eq_true hw)
    simp [legal, hop, himm, hlimit]

/-- A step on a command word: `exec` of the command, or the illegal word's own path. -/
theorem step_of_word {s t : State} {w : Word} {rest : List HostEvent} (hin : s.input = .command w :: rest)
    (h : step s = .next t) :
    (∃ i, decode w = .ok i ∧ exec i { s with input := rest } = .next t) ∨
      ({ s with input := rest } : State).illegalCommand (opField w) = .next t := by
  rw [step, State.nextEvent_cons hin] at h
  cases hd : decode w with
  | ok i => exact .inl ⟨i, rfl, by simpa only [hd] using h⟩
  | error e => exact .inr (by simpa only [hd] using h)

/-- An illegal word leaves `RESP`, latched or discarded. -/
theorem State.illegalCommand_resp {s t : State} {op : Byte} (h : s.illegalCommand op = .next t) : t.resp = s.resp := by
  obtain ⟨-, rfl⟩ | ⟨-, rfl⟩ := State.illegalCommand_next_iff.mp h <;> rfl

theorem resp_of_init_word {s t : State} {rest : List HostEvent} (hin : s.input = .command 0x0100#16 :: rest)
    (h : step s = .next t) : t.resp = 0x0000#16 := by
  have hdecode : decode 0x0100#16 = .ok .init := by decide
  rw [step, State.nextEvent_cons hin] at h
  simp only [hdecode, exec_init] at h
  cases h
  rfl

theorem resp_of_other_word {s t : State} {w : Word} {rest : List HostEvent} (hin : s.input = .command w :: rest)
    (h : step s = .next t) (hinit : w ≠ 0x0100#16)
    (hread : ¬ (legal w = true ∧ opField w ∈ [0x80#8, 0x81#8, 0x82#8])) : t.resp = s.resp := by
  obtain ⟨i, hdecode, hexec⟩ | hillegal := step_of_word hin h
  · by_contra hne
    obtain rfl | ⟨hi, hw⟩ := (effect_of_exec hexec).resp_writer hne
    · exact hinit (word_of_decode_init hdecode)
    · exact hread (legal_of_decode_reads hdecode hi hw)
  · exact State.illegalCommand_resp (s := { s with input := rest }) hillegal

/-- Settles O19: `RESP` is written by `INIT` and by the effect of a well-formed read alone. -/
theorem responseChangesOnlyByReadsAndInit : Obligations.ResponseChangesOnlyByReadsAndInit := by
  refine ⟨fun s t w rest hin h => ⟨?_, resp_of_other_word hin h⟩, fun s t hin h => ?_⟩
  · rintro rfl
    exact resp_of_init_word hin h
  · rw [step_of_no_event hin] at h
    cases h
    rfl

end Sys2Proof.Machine
end

section
/-! PROOFS. The commands and the events still to come (R21, R36): every operation of the model runs alike whatever they are,
and passes them on. -/

namespace Sys2Proof.Machine

/-- The same state of the engine with other events still to come. -/
def State.withInput (evs : List HostEvent) (s : State) : State := { s with input := evs }

/-- The same outcome with other events still to come. -/
def Step.withInput (evs : List HostEvent) : Step → Step
  | .next t => .next (t.withInput evs)
  | .fault e => .fault e
  | .refused r => .refused r

@[simp] theorem Step.withInput_next (evs : List HostEvent) (t : State) :
    Step.withInput evs (.next t) = .next (t.withInput evs) := rfl

/-- The work of a command does not see the events still to come. -/
def InputBlind (work : State → Except Fault State) : Prop :=
  ∀ (evs : List HostEvent) (s : State), work (s.withInput evs) = (work s).map (State.withInput evs)

theorem settle_withInput (evs : List HostEvent) (r : Except Fault State) :
    settle (r.map (State.withInput evs)) = Step.withInput evs (settle r) := by
  cases r <;> rfl

theorem State.gate_withInput (evs : List HostEvent) (s : State) (r : Step) :
    (s.withInput evs).gate (Step.withInput evs r) = Step.withInput evs (s.gate r) := by
  by_cases h : s.err = 0#3
  · rw [State.gate_running h, State.gate_running (show (s.withInput evs).err = 0#3 from h)]
  · rw [State.gate_faulted h, State.gate_faulted (show (s.withInput evs).err ≠ 0#3 from h)]
    rfl

theorem State.illegalCommand_withInput (evs : List HostEvent) (s : State) (op : Byte) :
    (s.withInput evs).illegalCommand op = Step.withInput evs (s.illegalCommand op) :=
  s.gate_withInput evs (.next (s.raiseFault .illegalCommand op))

theorem State.appending_withInput {work : State → Except Fault State} (hwork : InputBlind work)
    (evs : List HostEvent) (s : State) (n : Nat) :
    (s.withInput evs).appending n work = Step.withInput evs (s.appending n work) := by
  refine Eq.trans (congrArg (s.withInput evs).gate ?_) (s.gate_withInput evs _)
  by_cases ho : s.textOverflows n
  · rw [if_pos ho, if_pos (show (s.withInput evs).textOverflows n = true from ho)]
    rfl
  · rw [if_neg ho, if_neg (show ¬ (s.withInput evs).textOverflows n = true from ho), ← settle_withInput, ← hwork]
    rfl

/-! ## The work of the appending commands -/

theorem emit_inputBlind (i : BitVec 6) : InputBlind (emit i) := by
  intro evs s
  rw [emit_eq, emit_eq, apply_ite (Except.map (State.withInput evs))]
  rfl

theorem InputBlind.bind {f k : State → Except Fault State} (hf : InputBlind f) (hk : InputBlind k) :
    InputBlind (fun s => f s >>= k) := by
  intro evs s
  show f (s.withInput evs) >>= k = (f s >>= k).map (State.withInput evs)
  rw [hf]
  cases f s with
  | ok t => exact hk evs t
  | error e => rfl

/-- Putting values in `ACC` and `PH`, as the end of a piece of work does. -/
theorem setBits_inputBlind (acc : BitVec 4) (ph : BitVec 2) :
    InputBlind (fun t => pure { t with acc := acc, ph := ph }) := fun _ _ => rfl

theorem b64Push_inputBlind (b : Byte) : InputBlind (b64Push b) := by
  intro evs s
  unfold b64Push
  by_cases h0 : s.ph = 0#2
  · rw [if_pos h0, if_pos (show (s.withInput evs).ph = 0#2 from h0)]
    exact (emit_inputBlind _).bind (setBits_inputBlind _ _) evs s
  · rw [if_neg h0, if_neg (show (s.withInput evs).ph ≠ 0#2 from h0)]
    by_cases h1 : s.ph = 1#2
    · rw [if_pos h1, if_pos (show (s.withInput evs).ph = 1#2 from h1)]
      exact (emit_inputBlind _).bind (setBits_inputBlind _ _) evs s
    · rw [if_neg h1, if_neg (show (s.withInput evs).ph ≠ 1#2 from h1)]
      exact (emit_inputBlind _).bind ((emit_inputBlind _).bind (setBits_inputBlind _ _)) evs s

theorem b64PushAll_inputBlind (bs : List Byte) : InputBlind (b64PushAll bs) := by
  induction bs with
  | nil => exact fun _ _ => rfl
  | cons b bs ih => exact (b64Push_inputBlind b).bind ih

theorem b64Flush_inputBlind : InputBlind b64Flush := by
  intro evs s
  unfold b64Flush
  by_cases h1 : s.ph = 1#2
  · rw [if_pos h1, if_pos (show (s.withInput evs).ph = 1#2 from h1)]
    exact (emit_inputBlind _).bind (setBits_inputBlind _ _) evs s
  · rw [if_neg h1, if_neg (show (s.withInput evs).ph ≠ 1#2 from h1)]
    by_cases h2 : s.ph = 2#2
    · rw [if_pos h2, if_pos (show (s.withInput evs).ph = 2#2 from h2)]
      exact (emit_inputBlind _).bind (setBits_inputBlind _ _) evs s
    · rw [if_neg h2, if_neg (show (s.withInput evs).ph ≠ 2#2 from h2)]
      rfl

/-! ## The commands -/

theorem buildAddress_inputBlind : InputBlind buildAddress := by
  intro evs s
  have hbytes : (s.withInput evs).bytes = s.bytes := State.bytes_congr (State.memRead_congr rfl rfl)
  rw [buildAddress_ok, buildAddress_ok, hbytes]
  generalize crcSeq (s.bytes .ea 0 34) = k
  generalize b64url (withChecksum (s.bytes .ea 0 34)) = text
  rfl

theorem exec_rdr_withInput (evs : List HostEvent) (n : Byte) (s : State) :
    exec (.rdr n) (s.withInput evs) = Step.withInput evs (exec (.rdr n) s) := by
  rw [exec_rdr, exec_rdr]
  cases statusNumber n with
  | none => exact s.illegalCommand_withInput evs _
  | some w => cases w <;> rfl

theorem exec_rde_withInput (evs : List HostEvent) (a : Byte) (s : State) :
    exec (.rde a) (s.withInput evs) = Step.withInput evs (exec (.rde a) s) := by
  by_cases ha : a.toNat < 36
  · rw [exec_rde_ok ha, exec_rde_ok ha]
    rfl
  · rw [exec_rde_past ha, exec_rde_past ha]
    exact s.illegalCommand_withInput evs _

theorem exec_rdt_withInput (evs : List HostEvent) (a : Byte) (s : State) :
    exec (.rdt a) (s.withInput evs) = Step.withInput evs (exec (.rdt a) s) := by
  by_cases ha : a.toNat < 48
  · rw [exec_rdt_ok ha, exec_rdt_ok ha]
    rfl
  · rw [exec_rdt_past ha, exec_rdt_past ha]
    exact s.illegalCommand_withInput evs _

theorem exec_adrByte_withInput (evs : List HostEvent) (b : Byte) (s : State) :
    exec (.adrByte b) (s.withInput evs) = Step.withInput evs (exec (.adrByte b) s) := by
  by_cases hr : s.err = 0#3
  · rw [exec_adrByte_received hr, exec_adrByte_received (show (s.withInput evs).err = 0#3 from hr)]
    rfl
  · rw [exec_adrByte_faulted hr, exec_adrByte_faulted (show (s.withInput evs).err ≠ 0#3 from hr)]
    rfl

theorem exec_adrEnd_withInput (evs : List HostEvent) (s : State) :
    exec .adrEnd (s.withInput evs) = Step.withInput evs (exec .adrEnd s) := by
  refine Eq.trans (congrArg (s.withInput evs).gate ?_) (s.gate_withInput evs _)
  by_cases hp : s.pos.toNat < rawMin
  · rw [if_pos hp, if_pos (show (s.withInput evs).pos.toNat < rawMin from hp)]
    rfl
  · rw [if_neg hp, if_neg (show ¬ (s.withInput evs).pos.toNat < rawMin from hp)]
    by_cases ht : s.tag = tagStd
    · rw [if_neg (not_not.mpr ht), if_neg (not_not.mpr (show (s.withInput evs).tag = tagStd from ht)),
        buildAddress_inputBlind]
      exact settle_withInput evs _
    · rw [if_pos ht, if_pos (show (s.withInput evs).tag ≠ tagStd from ht)]
      rfl

/-- A command runs alike whatever the events still to come, and passes them on. -/
theorem exec_withInput (evs : List HostEvent) (i : Instr) (s : State) :
    exec i (s.withInput evs) = Step.withInput evs (exec i s) := by
  cases i with
  | init => rfl
  | crcClr => exact s.gate_withInput evs (.next { s with crc := crcInit })
  | crcUpd b => exact s.gate_withInput evs (.next { s with crc := crcByte s.crc (dataByte b) })
  | crcEmit => exact State.appending_withInput (b64PushAll_inputBlind _) evs s _
  | b64Clr => exact s.gate_withInput evs (.next { s.clearText with done := false })
  | b64Push b => exact State.appending_withInput (b64Push_inputBlind _) evs s _
  | b64End => exact State.appending_withInput b64Flush_inputBlind evs s _
  | adrByte b => exact exec_adrByte_withInput evs b s
  | adrEnd => exact exec_adrEnd_withInput evs s
  | rdr n => exact exec_rdr_withInput evs n s
  | rde a => exact exec_rde_withInput evs a s
  | rdt a => exact exec_rdt_withInput evs a s

/-- Settles O11: the second clause is the law above, and the first is the law for the events as they are. -/
theorem commandsDoNotSeeTheInput : Obligations.CommandsDoNotSeeTheInput := by
  intro i s t evs h
  have other (evs : List HostEvent) : exec i (s.withInput evs) = .next (t.withInput evs) := by
    rw [exec_withInput, h, Step.withInput_next]
  refine ⟨?_, other evs⟩
  have same : exec i s = .next (t.withInput s.input) := other s.input
  rw [h] at same
  injection same with ht
  rw [ht]
  rfl

end Sys2Proof.Machine
end

section
/-! PROOFS. The bytes of one record (R27, R28, R150, R151), by induction on the bytes from any `POS`. -/

namespace Sys2Proof.Machine

/-! ## Running a sequence of commands -/

@[simp] theorem runCommands_nil (s : State) : runCommands [] s = .next s := rfl

/-- The first command of a sequence runs on the state as it is: what the host has still to issue is not seen. -/
theorem runCommands_cons {i : Instr} {is : List Instr} {s t : State} (hdecode : decode (encode i) = .ok i)
    (h : exec i s = .next t) : runCommands (i :: is) s = runCommands is t := by
  obtain ⟨hinput, hother⟩ := commandsDoNotSeeTheInput i s t (commands is ++ s.input) h
  rw [← hinput] at hother
  refine run_succ ?_
  rw [step, State.nextEvent_cons rfl]
  simp only [hdecode]
  rw [← hinput]
  exact hother

theorem decode_adrByte (b : Byte) : decode (encode (.adrByte b)) = .ok (.adrByte b) :=
  decode_commandOf 0x31#8 b

/-! ## One byte -/

theorem State.received_pos (s : State) (b : Byte) : (s.received b).pos.toNat = min (s.pos.toNat + 1) 34 :=
  nextPos_toNat s.pos

theorem State.received_memRead (s : State) (b : Byte) (a : Nat) :
    (s.received b).memRead .ea a = if a = s.pos.toNat ∧ 1 ≤ a ∧ a ≤ 33 then b else s.memRead .ea a := by
  have hpos : s.pos ≠ 0#6 ↔ 1 ≤ s.pos.toNat := by
    rw [Nat.one_le_iff_ne_zero, ne_eq, ne_eq, ← BitVec.toNat_inj]
    rfl
  by_cases ha : a = 0
  · simp [ha]
  · simp only [State.memRead, State.received, ha, if_false, hpos]
    by_cases hcell : 1 ≤ s.pos.toNat ∧ s.pos.toNat ≤ 33
    · rw [if_pos hcell, Memory.read_write]
      exact if_congr ⟨by rintro rfl; exact ⟨rfl, hcell⟩, fun h => h.1.symm⟩ rfl rfl
    · rw [if_neg hcell, if_neg (by rintro ⟨rfl, h⟩; exact hcell h)]

/-! ## A record -/

/-- The state after the bytes of a record, one after another. -/
def State.receivedAll (s : State) (raw : List Byte) : State := raw.foldl State.received s

@[simp] theorem State.receivedAll_nil (s : State) : s.receivedAll [] = s := rfl

@[simp] theorem State.receivedAll_cons (s : State) (b : Byte) (raw : List Byte) :
    s.receivedAll (b :: raw) = (s.received b).receivedAll raw := rfl

theorem runCommands_adrByte {s : State} (hr : s.err = 0#3) (raw : List Byte) :
    runCommands (raw.map .adrByte) s = .next (s.receivedAll raw) := by
  induction raw generalizing s with
  | nil => rfl
  | cons b raw ih =>
    rw [List.map_cons, runCommands_cons (decode_adrByte b) (exec_adrByte_received hr b)]
    exact ih hr

theorem State.receivedAll_frame (s : State) (raw : List Byte) :
    s.receivedAll raw = { s with
      ea := (s.receivedAll raw).ea, tag := (s.receivedAll raw).tag, pos := (s.receivedAll raw).pos,
      done := (s.receivedAll raw).done } := by
  induction raw generalizing s with
  | nil => rfl
  | cons b raw ih => exact ih (s.received b)

theorem State.receivedAll_pos {s : State} (h : s.pos.toNat ≤ 34) (raw : List Byte) :
    (s.receivedAll raw).pos.toNat = min (s.pos.toNat + raw.length) 34 := by
  induction raw generalizing s with
  | nil => simpa using h
  | cons b raw ih =>
    have hpos := s.received_pos b
    rw [State.receivedAll_cons, ih (by omega), hpos, List.length_cons]
    omega

theorem State.receivedAll_done {s : State} (h : s.done = false) (raw : List Byte) :
    (s.receivedAll raw).done = false := by
  induction raw generalizing s with
  | nil => exact h
  | cons b raw ih => exact ih rfl

/-- Only the first byte of a record is the tag. -/
theorem State.receivedAll_tag {s : State} (h : 1 ≤ s.pos.toNat) (raw : List Byte) :
    (s.receivedAll raw).tag = s.tag := by
  induction raw generalizing s with
  | nil => rfl
  | cons b raw ih =>
    have hpos := s.received_pos b
    have h0 : s.pos ≠ 0#6 := by rintro h0; simp [h0] at h
    rw [State.receivedAll_cons, ih (by omega)]
    exact if_neg h0

/-- Cell `a` of `EA` holds the byte that came while `POS` was `a`, if there was one. -/
theorem State.receivedAll_memRead {s : State} (h : s.pos.toNat ≤ 34) (raw : List Byte) (a : Nat) :
    (s.receivedAll raw).memRead .ea a =
      if hk : (s.pos.toNat ≤ a ∧ 1 ≤ a ∧ a ≤ 33) ∧ a - s.pos.toNat < raw.length then raw[a - s.pos.toNat]'hk.2
      else s.memRead .ea a := by
  induction raw generalizing s with
  | nil => simp
  | cons b raw ih =>
    have hpos := s.received_pos b
    rw [State.receivedAll_cons, ih (by omega), State.received_memRead]
    by_cases hhere : a = s.pos.toNat
    · rw [dif_neg (by omega)]
      simp [hhere]
    · rw [if_neg (fun h => hhere h.1)]
      by_cases hlater : (s.pos.toNat + 1 ≤ a ∧ 1 ≤ a ∧ a ≤ 33) ∧ a - (s.pos.toNat + 1) < raw.length
      · have hindex : a - s.pos.toNat = a - (s.received b).pos.toNat + 1 := by omega
        rw [dif_pos (by omega), dif_pos (by rw [List.length_cons]; omega)]
        simp [hindex]
      · rw [dif_neg (by omega), dif_neg (by rw [List.length_cons]; omega)]

/-- Settles O43: the laws of a record's bytes from `POS = 0`. -/
theorem recordBytesLandInTheirCells : Obligations.RecordBytesLandInTheirCells := by
  intro s raw hr hpos
  have h0 : s.pos.toNat = 0 := by rw [hpos]; rfl
  have hle : s.pos.toNat ≤ 34 := by omega
  refine ⟨s.receivedAll raw, runCommands_adrByte hr raw, s.receivedAll_frame raw, ?_, ?_, ?_, ?_, ?_⟩
  · rw [State.receivedAll_pos hle, h0, Nat.zero_add]
  · cases raw with
    | nil => rfl
    | cons b raw =>
      have h1 := s.received_pos b
      rw [State.receivedAll_cons, State.receivedAll_tag (by omega)]
      exact if_pos hpos
  · intro hne
    cases raw with
    | nil => exact absurd rfl hne
    | cons b raw => exact State.receivedAll_done (s := s.received b) rfl raw
  · intro k hk h1 h33
    rw [State.receivedAll_memRead hle]
    simp [h0, h1, h33, hk]
  · intro a ha
    rw [State.receivedAll_memRead hle, dif_neg (by omega)]

end Sys2Proof.Machine
end

section
/-! PROOFS. Which commands write which buffer cell (R53), read off the effects of the commands. -/

namespace Sys2Proof.Machine

/-! ## What a read sees of the updates that write a buffer -/

/-- A conversion writes the two cells of the checksum and no other cell of `EA` (R152). -/
theorem State.withResult_memRead_ea (s : State) (k : Word) (text : List Byte) {a : Nat} (h34 : a ≠ 34) (h35 : a ≠ 35) :
    (s.withResult k text).memRead .ea a = s.memRead .ea a := by
  simp only [State.memRead, State.withResult]
  rw [Memory.read_write_other _ _ h35.symm, Memory.read_write_other _ _ h34.symm]

/-- Appended characters are seen from `TLEN` up, one cell for each (R133). -/
theorem State.appendChars_memRead_txt (s : State) (cs : List Byte) {a : Nat}
    (h : ¬ (s.tlen.toNat ≤ a ∧ a - s.tlen.toNat < cs.length)) :
    (s.appendChars cs).memRead .txt a = s.memRead .txt a :=
  (Memory.read_writeAll _ _ _ _).trans (dif_neg h)

/-! ## The writers of each buffer -/

theorem Effect.ea_writer {s t : State} {i : Instr} {a : Nat} (h : Effect s i t)
    (hne : t.memRead .ea a ≠ s.memRead .ea a) :
    i = .init ∨ ((∃ b, i = .adrByte b) ∧ a = s.pos.toNat ∧ 1 ≤ a ∧ a ≤ 33) ∨ (i = .adrEnd ∧ (a = 34 ∨ a = 35)) := by
  cases h with
  | reset => exact .inl rfl
  | received _ b =>
    refine .inr (.inl ⟨⟨b, rfl⟩, by_contra fun hcell => hne ?_⟩)
    rw [State.received_memRead, if_neg hcell]
  | converted _ _ _ k _ text =>
    refine .inr (.inr ⟨rfl, by_contra fun hcell => hne ?_⟩)
    obtain ⟨h34, h35⟩ := not_or.mp hcell
    exact s.withResult_memRead_ea k text h34 h35
  | _ => exact absurd rfl hne

theorem Effect.txt_writer {s t : State} {i : Instr} {a : Nat} (h : Effect s i t)
    (hne : t.memRead .txt a ≠ s.memRead .txt a) :
    i = .init ∨ i = .b64Clr ∨ i = .adrEnd ∨ (AppendsText i ∧ s.tlen.toNat ≤ a ∧ a < t.tlen.toNat) := by
  cases h with
  | reset => exact .inl rfl
  | textCleared => exact .inr (.inl rfl)
  | converted => exact .inr (.inr (.inl rfl))
  | appended _ hi cs ph acc hfit =>
    obtain ⟨hfrom, hto⟩ : s.tlen.toNat ≤ a ∧ a - s.tlen.toNat < cs.length :=
      by_contra fun hcell => hne (s.appendChars_memRead_txt cs hcell)
    have htlen := State.appendChars_tlen hfit
    refine .inr (.inr (.inr ⟨hi, hfrom, ?_⟩))
    show a < (s.appendChars cs).tlen.toNat
    omega
  | _ => exact absurd rfl hne

/-- Settles O17: one lemma for each buffer. -/
theorem buffersChangeOnlyWhereR53Says : Obligations.BuffersChangeOnlyWhereR53Says :=
  fun _ _ _ _ h => ⟨(effect_of_exec h).ea_writer, (effect_of_exec h).txt_writer⟩

end Sys2Proof.Machine
end

section
/-! PROOFS. Sequences of commands compose (R61). A sequence may hold ill-formed terms: such a term means the illegal word it
encodes (log entry 8), so one equation speaks of every command. -/

namespace Sys2Proof.Machine

/-! ## A step on the word a command encodes to -/

theorem decodeNumber_commandOf (op imm : Byte) (limit : Nat) (i : Byte → Instr) :
    decodeNumber (commandOf op imm) limit i =
      if decide (imm.toNat < limit) then .ok (i imm) else .error (.operandPastLimit op imm) := by
  simp only [decodeNumber, immField_commandOf, opField_commandOf, decide_eq_true_eq]

/-- The decoder on every encoding: the command back, or the one reason an encoding can be rejected for. -/
theorem decode_encode (i : Instr) :
    decode (encode i) = if i.wellFormed then .ok i else .error (.operandPastLimit i.opcode i.operand) := by
  cases i with
  | crcUpd b => exact decode_commandOf 0x11#8 b
  | b64Push b => exact decode_commandOf 0x21#8 b
  | adrByte b => exact decode_adrByte b
  | rdr n => exact (decode_commandOf 0x80#8 n).trans (decodeNumber_commandOf _ _ _ _)
  | rde a => exact (decode_commandOf 0x81#8 a).trans (decodeNumber_commandOf _ _ _ _)
  | rdt a => exact (decode_commandOf 0x82#8 a).trans (decodeNumber_commandOf _ _ _ _)
  | _ => rfl

/-- An ill-formed term is executed as an illegal word with its opcode (log entry 8). -/
theorem exec_of_not_wellFormed {i : Instr} (h : i.wellFormed = false) (s : State) :
    exec i s = s.illegalCommand i.opcode := by
  cases i with
  | rdr n =>
    have hpast : statusNumber n = none := (statusNumber_none_iff n).mpr (Nat.le_of_not_lt (of_decide_eq_false h))
    rw [exec_rdr, hpast]
    rfl
  | rde a => exact exec_rde_past (of_decide_eq_false h) s
  | rdt a => exact exec_rdt_past (of_decide_eq_false h) s
  | _ => cases h

/-- A step on the word of a command is that command's `exec`, whether or not the word is legal. -/
theorem step_of_encoded {i : Instr} {s : State} {rest : List HostEvent} (hin : s.input = .command (encode i) :: rest) :
    step s = exec i { s with input := rest } := by
  rw [step, State.nextEvent_cons hin]
  cases hw : i.wellFormed with
  | true => simp only [decode_encode, hw, if_true]
  | false =>
    simp only [decode_encode, hw, Bool.false_eq_true, if_false]
    rw [exec_of_not_wellFormed hw, encode, opField_commandOf]

/-! ## Running on from an outcome -/

/-- What comes after an outcome: it runs from the next state, and a stop stays a stop. -/
def Step.andThen (r : Step) (f : State → Step) : Step :=
  match r with
  | .next t => f t
  | .fault e => .fault e
  | .refused x => .refused x

@[simp] theorem Step.andThen_next (t : State) (f : State → Step) : Step.andThen (.next t) f = f t := rfl

theorem Step.andThen_assoc (r : Step) (f g : State → Step) :
    Step.andThen (Step.andThen r f) g = Step.andThen r (fun t => Step.andThen (f t) g) := by
  cases r <;> rfl

theorem run_succ_andThen (n : Nat) (s : State) : run (n + 1) s = Step.andThen (step s) (run n) := by
  rw [run]
  cases step s <;> rfl

/-- The first command of a sequence runs on the state as it is, and the others on what it leaves: the commands still to
come are not seen by it and are still there after it. -/
theorem runCommands_cons_andThen (i : Instr) (is : List Instr) (s : State) :
    runCommands (i :: is) s = Step.andThen (exec i s) (runCommands is) := by
  have hrun : runCommands (i :: is) s =
      Step.andThen (Step.withInput (commands is ++ s.input) (exec i s)) (run is.length) := by
    rw [runCommands, List.length_cons, run_succ_andThen, step_of_encoded rfl, ← exec_withInput]
    rfl
  rw [hrun]
  cases h : exec i s with
  | next t =>
    obtain ⟨hinput, -⟩ := commandsDoNotSeeTheInput i s t [] h
    rw [← hinput]
    rfl
  | fault e => rfl
  | refused x => rfl

theorem runCommands_append (is js : List Instr) (s : State) :
    runCommands (is ++ js) s = Step.andThen (runCommands is s) (runCommands js) := by
  induction is generalizing s with
  | nil => rfl
  | cons i is ih =>
    have hrest : runCommands (is ++ js) = fun t => Step.andThen (runCommands is t) (runCommands js) := funext ih
    rw [List.cons_append, runCommands_cons_andThen, runCommands_cons_andThen, Step.andThen_assoc, hrest]

/-- Settles O10: the law of appending, for a first part that goes through. -/
theorem runsCompose : Obligations.RunsCompose := by
  intro is js s t h
  rw [runCommands_append, h, Step.andThen_next]

end Sys2Proof.Machine
end

section
/-! PROOFS. The encoding (R71 to R77): the decoder and the encoder undo each other, the decoder accepts exactly the words of
`legal`, and a rejected word is named by its kind. -/

namespace Sys2Proof.Machine

/-! ## The round trip (R71, R74) -/

/-- Settles O1: the decoder on an encoding gives the command back or rejects it, as its operand is legal or not. -/
theorem decodeOfEncodeIsTheCommand : Obligations.DecodeOfEncodeIsTheCommand := by
  intro i
  rw [decode_encode]
  cases i.wellFormed <;> simp

theorem encode_of_decode {w : Word} {i : Instr} (h : decode w = .ok i) : encode i = w := by
  obtain ⟨hop, himm⟩ := fields_of_decode h
  rw [encode, ← hop, ← himm, commandOf_fields]

/-- Settles O2: the two fields are the whole word, and an encoding that decodes is that of a well-formed command. -/
theorem encodeOfDecodeIsTheWord : Obligations.EncodeOfDecodeIsTheWord := by
  intro w i h
  have hword : encode i = w := encode_of_decode h
  rw [← hword] at h
  exact ⟨hword, (decodeOfEncodeIsTheCommand i).mp h⟩

/-! ## Rejected words (R76) -/

theorem decodeNoOperand_error_iff {w : Word} {i : Instr} {e : Illegal} :
    decodeNoOperand w i = .error e ↔ immField w ≠ 0#8 ∧ e = .operandNotZero (opField w) (immField w) := by
  unfold decodeNoOperand
  split <;> simp_all [eq_comm]

theorem decodeNumber_error_iff {w : Word} {n : Nat} {i : Byte → Instr} {e : Illegal} :
    decodeNumber w n i = .error e ↔ n ≤ (immField w).toNat ∧ e = .operandPastLimit (opField w) (immField w) := by
  unfold decodeNumber
  split <;> simp_all [eq_comm]

/-- Settles O4: each row of Table E3 rejects for one reason, by its format, and the last line of the decoder is reached by
the opcodes of no row. -/
theorem rejectedWordsAreNamedByTheirKind : Obligations.RejectedWordsAreNamedByTheirKind := by
  intro w e h
  unfold decode at h
  split at h
  case h_1 hop | h_2 hop | h_4 hop | h_5 hop | h_7 hop | h_9 hop =>
    obtain ⟨himm, he⟩ := decodeNoOperand_error_iff.mp h
    exact .inr (.inl ⟨by simp [← BitVec.toNat_inj, hop], himm, he⟩)
  case h_3 | h_6 | h_8 => cases h
  case h_10 hop | h_11 hop | h_12 hop =>
    obtain ⟨himm, he⟩ := decodeNumber_error_iff.mp h
    exact .inr (.inr ⟨by simpa [← BitVec.toNat_inj, hop] using himm, he⟩)
  case h_13 =>
    cases h
    exact .inl ⟨by simp_all [← BitVec.toNat_inj], rfl⟩

/-! ## Legal words (R75) -/

/-- How many operands an opcode has (Table E2): the legal ones are the numbers below it. An undefined opcode has none. -/
def operandCount (op : Byte) : Nat :=
  if op ∈ [0x01#8, 0x10#8, 0x12#8, 0x20#8, 0x22#8, 0x32#8] then 1
  else if op ∈ [0x11#8, 0x21#8, 0x31#8] then 256
  else if op = 0x80#8 then csrCount
  else if op = 0x81#8 then eaLen
  else if op = 0x82#8 then txtCap
  else 0

theorem legal_iff_lt_operandCount (w : Word) : legal w = true ↔ (immField w).toNat < operandCount (opField w) := by
  simp only [legal, operandCount, beq_iff_eq]
  split_ifs
  · simp [← BitVec.toNat_inj]
  · exact iff_of_true rfl (immField w).isLt
  · exact decide_eq_true_iff.trans Nat.lt_succ_iff.symm
  · exact decide_eq_true_iff.trans Nat.lt_succ_iff.symm
  · exact decide_eq_true_iff.trans Nat.lt_succ_iff.symm
  · simp

theorem operandCount_le (op : Byte) : operandCount op ≤ 256 := by
  unfold operandCount
  split_ifs <;> simp

theorem wellFormed_iff_lt_operandCount (i : Instr) :
    i.wellFormed = true ↔ i.operand.toNat < operandCount i.opcode := by
  cases i with
  | crcUpd b | b64Push b | adrByte b => exact iff_of_true rfl b.isLt
  | rdr n | rde n | rdt n => exact decide_eq_true_iff
  | _ => exact iff_of_true rfl Nat.one_pos

theorem legal_encode (i : Instr) : legal (encode i) = i.wellFormed := by
  rw [Bool.eq_iff_iff, legal_iff_lt_operandCount, wellFormed_iff_lt_operandCount, encode, opField_commandOf,
    immField_commandOf]

/-- None of the three kinds of R76 is legal. -/
theorem not_legal_of_decode_error {w : Word} {e : Illegal} (h : decode w = .error e) : legal w = false := by
  obtain ⟨hop, -⟩ | ⟨hop, himm, -⟩ | ⟨hlimit, -⟩ := rejectedWordsAreNamedByTheirKind w e h
  · simp_all [legal]
  · simp only [legal, if_pos hop, beq_eq_false_iff_ne]
    exact himm
  · obtain ⟨hop, himm⟩ | ⟨hop, himm⟩ | ⟨hop, himm⟩ := hlimit <;> simp [legal, hop] <;> omega

theorem legal_iff_decode_ok (w : Word) : legal w = true ↔ ∃ i, decode w = .ok i := by
  refine ⟨fun hlegal => ?_, fun ⟨i, h⟩ => ?_⟩
  · cases h : decode w with
    | ok i => exact ⟨i, rfl⟩
    | error e =>
      rw [not_legal_of_decode_error h] at hlegal
      cases hlegal
  · obtain ⟨hword, hwf⟩ := encodeOfDecodeIsTheWord w i h
    rw [← hword, legal_encode, hwf]

theorem countP_range_lt (n k : Nat) : (List.range n).countP (fun m => decide (m < k)) = min n k := by
  induction n with
  | zero => simp
  | succ n ih =>
    rw [List.range_succ, List.countP_append, ih, List.countP_singleton]
    by_cases hn : n < k <;> simp [hn] <;> omega

theorem count_legal_operands (op : Byte) :
    (List.range 256).countP (fun imm => legal (commandOf op (BitVec.ofNat 8 imm))) = operandCount op := by
  have hlegal : ∀ imm ∈ List.range 256,
      legal (commandOf op (BitVec.ofNat 8 imm)) = true ↔ decide (imm < operandCount op) = true := by
    intro imm himm
    rw [legal_iff_lt_operandCount, opField_commandOf, immField_commandOf, BitVec.toNat_ofNat,
      Nat.mod_eq_of_lt (List.mem_range.mp himm), decide_eq_true_iff]
  rw [List.countP_congr hlegal, countP_range_lt, min_eq_right (operandCount_le op)]

/-- 6 opcodes of one operand, 3 of 256, and the limits 4, 36 and 48 (Tables E2 and E3). -/
theorem sum_operandCount : ((List.range 256).map (fun op => operandCount (BitVec.ofNat 8 op))).sum = 862 := by
  decide +kernel

/-- Settles O3: a decoded word is a well-formed encoding, a rejected one is illegal by its kind; and the legal words are
counted by their opcodes. -/
theorem decoderAcceptsExactlyTheLegalWords : Obligations.DecoderAcceptsExactlyTheLegalWords := by
  refine ⟨legal_iff_decode_ok, ?_⟩
  simp only [count_legal_operands]
  exact sum_operandCount

/-! ## Words written out (Table E3) -/

/-- Settles O5: the decoder run on each of the twenty words. -/
theorem wordsOfTableE3Decode : Obligations.WordsOfTableE3Decode := by
  unfold Obligations.WordsOfTableE3Decode
  decide

end Sys2Proof.Machine
end

section
/-! PROOFS. One step on a command word (R70, R80, R81): the word's command, or the illegal word's own path, behind the
fault-state gate. -/

namespace Sys2Proof.Machine

/-! ## The two paths of a word -/

theorem step_of_decoded {s : State} {w : Word} {rest : List HostEvent} {i : Instr} (hin : s.input = .command w :: rest)
    (hdecode : decode w = .ok i) : step s = exec i { s with input := rest } := by
  rw [step, State.nextEvent_cons hin]
  simp only [hdecode]

theorem step_of_rejected {s : State} {w : Word} {rest : List HostEvent} {e : Illegal}
    (hin : s.input = .command w :: rest) (hdecode : decode w = .error e) :
    step s = ({ s with input := rest } : State).illegalCommand (opField w) := by
  rw [step, State.nextEvent_cons hin]
  simp only [hdecode]

/-- Settles O6: the first of the two paths. -/
theorem stepRunsTheDecodedCommand : Obligations.StepRunsTheDecodedCommand :=
  fun _ _ _ _ => step_of_decoded

theorem step_of_legal {s : State} {w : Word} {rest : List HostEvent} (hin : s.input = .command w :: rest)
    (hlegal : legal w = true) : ∃ i, decode w = .ok i ∧ encode i = w ∧ step s = exec i { s with input := rest } := by
  obtain ⟨i, hdecode⟩ := (legal_iff_decode_ok w).mp hlegal
  exact ⟨i, hdecode, encode_of_decode hdecode, step_of_decoded hin hdecode⟩

theorem step_of_illegal {s : State} {w : Word} {rest : List HostEvent} (hin : s.input = .command w :: rest)
    (hillegal : legal w = false) : step s = ({ s with input := rest } : State).illegalCommand (opField w) := by
  cases hdecode : decode w with
  | ok i =>
    rw [(legal_iff_decode_ok w).mpr ⟨i, hdecode⟩] at hillegal
    cases hillegal
  | error e => exact step_of_rejected hin hdecode

/-! ## The gate (R80) -/

/-- The commands the gate discards are those without one of the four opcodes that pass it. -/
theorem exec_discarded {s : State} {i : Instr} (hf : s.err ≠ 0#3)
    (hop : i.opcode ∉ [0x01#8, 0x80#8, 0x81#8, 0x82#8]) : exec i s = .next s := by
  cases i with
  | init | rdr | rde | rdt => simp [Instr.opcode] at hop
  | _ => exact State.gate_faulted hf _

/-- A word that does not pass the gate is discarded, legal or not. -/
theorem step_of_discarded {s : State} {w : Word} {rest : List HostEvent} (hin : s.input = .command w :: rest)
    (hf : s.err ≠ 0#3) (hpass : ¬ (legal w = true ∧ opField w ∈ [0x01#8, 0x80#8, 0x81#8, 0x82#8])) :
    step s = .next { s with input := rest } := by
  cases hlegal : legal w with
  | false => exact (step_of_illegal hin hlegal).trans (State.illegalCommand_next_iff.mpr (.inl ⟨hf, rfl⟩))
  | true =>
    obtain ⟨i, hdecode, -, hstep⟩ := step_of_legal hin hlegal
    obtain ⟨hop, -⟩ := fields_of_decode hdecode
    exact hstep.trans (exec_discarded hf fun hi => hpass ⟨hlegal, hop ▸ hi⟩)

/-- Settles O7: one lemma for each clause of R81; the first and the last are the same path. -/
theorem stepIsTheStepFunctionOfR81 : Obligations.StepIsTheStepFunctionOfR81 := by
  rintro s _ w rest hin rfl
  refine ⟨fun _ hpass => step_of_legal hin hpass.1, step_of_discarded hin, fun hr hillegal => ?_,
    fun _ => step_of_legal hin⟩
  exact (step_of_illegal hin hillegal).trans (State.illegalCommand_next_iff.mpr (.inr ⟨hr, rfl⟩))

end Sys2Proof.Machine
end

section
/-! PROOFS. Every command, every step and every run completes from a legal phase (R70); in the fault state, where nothing is
written to the text, a command completes from any phase, and leaves everything but `RESP` (R176, R179). -/

namespace Sys2Proof.Machine

/-! ## Every command completes -/

theorem State.gate_completes {s : State} {r : Step} (h : s.err = 0#3 → ∃ t, r = .next t) :
    ∃ t, s.gate r = .next t := by
  by_cases hr : s.err = 0#3
  · rw [State.gate_running hr]
    exact h hr
  · exact ⟨s, State.gate_faulted hr r⟩

theorem State.illegalCommand_completes (s : State) (op : Byte) : ∃ t, s.illegalCommand op = .next t :=
  State.gate_completes fun _ => ⟨_, rfl⟩

/-- A command that appends completes once its characters, where they fit, can be written. -/
theorem State.appending_completes {s : State} {n : Nat} {work : State → Except Fault State}
    (h : s.err = 0#3 → s.tlen.toNat + n ≤ 48 → ∃ t, s.appending n work = .next t) :
    ∃ t, s.appending n work = .next t := by
  by_cases hr : s.err = 0#3
  · by_cases hfit : s.tlen.toNat + n ≤ 48
    · exact h hr hfit
    · exact ⟨_, State.appending_overflow hr (Nat.lt_of_not_le hfit) work⟩
  · exact ⟨s, State.gate_faulted hr _⟩

theorem exec_adrEnd_completes (s : State) : ∃ t, exec .adrEnd s = .next t := by
  by_cases hr : s.err = 0#3
  · by_cases hp : s.pos.toNat < 34
    · exact ⟨_, exec_adrEnd_short hr hp⟩
    · by_cases ht : s.tag = tagStd
      · exact ⟨_, exec_adrEnd_accepted hr hp ht⟩
      · exact ⟨_, exec_adrEnd_wrongTag hr hp ht⟩
  · exact ⟨s, exec_adrEnd_faulted hr⟩

theorem exec_rdr_completes (n : Byte) (s : State) : ∃ t, exec (.rdr n) s = .next t := by
  rw [exec_rdr]
  cases statusNumber n with
  | some w => exact ⟨_, rfl⟩
  | none => exact s.illegalCommand_completes _

theorem exec_completes {s : State} (h : s.err = 0#3 → s.ph ≠ 3#2) (i : Instr) : ∃ t, exec i s = .next t := by
  cases i with
  | init => exact ⟨_, exec_init s⟩
  | crcClr | crcUpd b | b64Clr => exact State.gate_completes fun _ => ⟨_, rfl⟩
  | crcEmit => exact State.appending_completes fun hr hfit => ⟨_, exec_crcEmit hr (h hr) hfit⟩
  | b64Push b => exact State.appending_completes fun hr hfit => ⟨_, exec_b64Push hr (h hr) b hfit⟩
  | b64End => exact State.appending_completes fun hr hfit => ⟨_, exec_b64End hr (h hr) hfit⟩
  | adrByte b =>
    by_cases hr : s.err = 0#3
    · exact ⟨_, exec_adrByte_received hr b⟩
    · exact ⟨s, exec_adrByte_faulted hr b⟩
  | adrEnd => exact exec_adrEnd_completes s
  | rdr n => exact exec_rdr_completes n s
  | rde a =>
    by_cases ha : a.toNat < 36
    · exact ⟨_, exec_rde_ok ha s⟩
    · rw [exec_rde_past ha]
      exact s.illegalCommand_completes _
  | rdt a =>
    by_cases ha : a.toNat < 48
    · exact ⟨_, exec_rdt_ok ha s⟩
    · rw [exec_rdt_past ha]
      exact s.illegalCommand_completes _

/-! ## Every step and every run -/

theorem step_completes {s : State} (hs : s.ph ≠ 3#2) : ∃ t, step s = .next t := by
  obtain ⟨-, h⟩ | ⟨rest, -, h⟩ | ⟨w, rest, i, -, -, h⟩ | ⟨w, rest, e, -, -, h⟩ := step_cases s <;> rw [h]
  · exact ⟨s, rfl⟩
  · exact ⟨_, rfl⟩
  · exact exec_completes (s := { s with input := rest }) (fun _ => hs) i
  · exact State.illegalCommand_completes _ _

theorem Effect.phase_legal {s t : State} {i : Instr} (hs : s.ph ≠ 3#2) (h : Effect s i t) : t.ph ≠ 3#2 := by
  cases h with
  | reset => exact bitsLegal_between_groups.phase
  | textCleared => exact bitsLegal_between_groups.phase
  | converted => exact bitsLegal_between_groups.phase
  | appended _ _ _ _ _ _ _ hlegal => exact hlegal.phase
  | _ => exact hs

theorem step_keeps_phase_legal {s t : State} (hs : s.ph ≠ 3#2) (h : step s = .next t) : t.ph ≠ 3#2 :=
  step_keeps (P := fun u => u.ph ≠ 3#2) (fun _ _ hu => hu) (fun _ _ _ => Effect.phase_legal) hs h

/-- Settles O9, by induction on the number of steps: each completes and leaves a legal phase to the next. -/
theorem everyRunCompletes : Obligations.EveryRunCompletes := by
  intro n
  induction n with
  | zero => exact fun s hs => ⟨s, rfl, hs⟩
  | succ n ih =>
    intro s hs
    obtain ⟨t, hstep⟩ := step_completes hs
    rw [run_succ hstep]
    exact ih t (step_keeps_phase_legal hs hstep)

/-! ## The fault state (R176, R179) -/

/-- In the fault state a command's effect is to be discarded or, for a read, to answer. -/
theorem Effect.of_faulted {s t : State} {i : Instr} (hf : s.err ≠ 0#3) (hi : i ≠ .init) (h : Effect s i t) :
    t = s ∨ (ReadsState i ∧ ∃ w, t = s.respond w) := by
  cases h with
  | discarded => exact .inl rfl
  | reset => exact absurd rfl hi
  | responded hread _ w => exact .inr ⟨hread, w, rfl⟩
  | _ => exact absurd ‹s.err = 0#3› hf

/-- Settles O23: the command completes, and its effect is one of the two of the fault state. -/
theorem faultStateChangesOnlyTheResponse : Obligations.FaultStateChangesOnlyTheResponse := by
  intro i s hf hi
  obtain ⟨t, hexec⟩ := exec_completes (fun hr => absurd hr hf) i
  obtain rfl | ⟨hread, w, rfl⟩ := (effect_of_exec hexec).of_faulted hf hi
  · exact ⟨t.resp, hexec, fun _ _ _ => rfl⟩
  · refine ⟨w, hexec, fun hrdr hrde hrdt => ?_⟩
    obtain ⟨n, rfl⟩ | ⟨a, rfl⟩ | ⟨a, rfl⟩ := hread
    · exact absurd rfl (hrdr n)
    · exact absurd rfl (hrde a)
    · exact absurd rfl (hrdt a)

end Sys2Proof.Machine
end

section
/-! PROOFS. The system and read commands (R100 to R103): what `INIT` makes of the engine, what each read answers, and what
an operand past its limit does. -/

namespace Sys2Proof.Machine

/-! ## The command word by its two bytes -/

theorem commandOf_eq_or (op imm : Byte) : commandOf op imm = op.setWidth 16 <<< 8 ||| imm.setWidth 16 := by
  rw [commandOf, BitVec.append_def, BitVec.shiftLeftZeroExtend_eq, BitVec.setWidth'_eq]

/-- Format N (Table E2): an operand that is not zero makes the word illegal. -/
theorem not_legal_commandOf_of_operand_ne_zero {op imm : Byte}
    (hop : op ∈ [0x01#8, 0x10#8, 0x12#8, 0x20#8, 0x22#8, 0x32#8]) (himm : imm ≠ 0x00#8) :
    legal (commandOf op imm) = false := by
  simp only [legal, opField_commandOf, immField_commandOf, if_pos hop, beq_eq_false_iff_ne]
  exact himm

/-! ## Illegal words, outside the fault state and in it (R76, R80, R173) -/

theorem State.illegalCommand_running {s : State} (hr : s.err = 0#3) (op : Byte) :
    s.illegalCommand op = .next { s with err := 3#3, errInfo := op, done := false } :=
  State.gate_running hr _

theorem State.illegalCommand_faulted {s : State} (hf : s.err ≠ 0#3) (op : Byte) : s.illegalCommand op = .next s :=
  State.gate_faulted hf _

/-- An operand past the limit of its command's format (Table E2). -/
theorem not_wellFormed_of_operandCount_le {i : Instr} (h : operandCount i.opcode ≤ i.operand.toNat) :
    i.wellFormed = false :=
  Bool.eq_false_iff.mpr fun hw => Nat.not_lt_of_le h ((wellFormed_iff_lt_operandCount i).mp hw)

theorem exec_illegal_running {i : Instr} (hw : i.wellFormed = false) {s : State} (hr : s.err = 0#3) :
    exec i s = .next { s with err := 3#3, errInfo := i.opcode, done := false } :=
  (exec_of_not_wellFormed hw s).trans (s.illegalCommand_running hr _)

theorem exec_illegal_faulted {i : Instr} (hw : i.wellFormed = false) {s : State} (hf : s.err ≠ 0#3) :
    exec i s = .next s :=
  (exec_of_not_wellFormed hw s).trans (s.illegalCommand_faulted hf _)

/-! ## The status words (R40 to R44) -/

section
open BitVec

/-- `CSR[0]` (R41). -/
theorem State.csr_status_fields (s : State) :
    (s.csr .status).getLsbD 0 = s.done ∧ ((s.csr .status).getLsbD 1 = true ↔ s.err ≠ 0#3) ∧
      (s.csr .status).extractLsb 4 2 = s.err ∧ (s.csr .status).extractLsb 7 5 = 0#3 ∧
      (s.csr .status).extractLsb 15 8 = s.errInfo := by
  simp only [State.csr, BitVec.extractLsb]
  refine ⟨?_, ?_, ?_, ?_, ?_⟩
  · rw [getLsbD_append]
    simp
  · rw [getLsbD_append, if_neg (by decide), getLsbD_append]
    simp [State.faultFlag]
  · rw [extractLsb'_append_eq_of_le (by decide), extractLsb'_append_eq_of_le (by decide)]
    exact extractLsb'_append_eq_right
  · rw [extractLsb'_append_eq_of_le (by decide), extractLsb'_append_eq_of_le (by decide),
      extractLsb'_append_eq_of_le (by decide)]
    exact extractLsb'_append_eq_right
  · rw [extractLsb'_append_eq_of_le (by decide), extractLsb'_append_eq_of_le (by decide),
      extractLsb'_append_eq_of_le (by decide)]
    exact extractLsb'_append_eq_left

/-- `CSR[2]` (R43). -/
theorem State.csr_b64st_fields (s : State) :
    (s.csr .b64st).extractLsb 5 0 = s.tlen ∧ (s.csr .b64st).extractLsb 7 6 = 0#2 ∧
      (s.csr .b64st).extractLsb 11 8 = s.acc ∧ (s.csr .b64st).extractLsb 13 12 = s.ph ∧
      (s.csr .b64st).extractLsb 15 14 = 0#2 := by
  simp only [State.csr, BitVec.extractLsb]
  refine ⟨extractLsb'_append_eq_right, ?_, ?_, ?_, ?_⟩
  · rw [extractLsb'_append_eq_of_le (by decide)]
    exact extractLsb'_append_eq_right
  · rw [extractLsb'_append_eq_of_le (by decide), extractLsb'_append_eq_of_le (by decide)]
    exact extractLsb'_append_eq_right
  · rw [extractLsb'_append_eq_of_le (by decide), extractLsb'_append_eq_of_le (by decide),
      extractLsb'_append_eq_of_le (by decide)]
    exact extractLsb'_append_eq_right
  · rw [extractLsb'_append_eq_of_le (by decide), extractLsb'_append_eq_of_le (by decide),
      extractLsb'_append_eq_of_le (by decide)]
    exact extractLsb'_append_eq_left

/-- `CSR[3]` (R44). -/
theorem State.csr_adrst_fields (s : State) :
    (s.csr .adrst).extractLsb 5 0 = s.pos ∧ (s.csr .adrst).extractLsb 7 6 = 0#2 ∧
      (s.csr .adrst).extractLsb 15 8 = s.tag := by
  simp only [State.csr, BitVec.extractLsb]
  refine ⟨extractLsb'_append_eq_right, ?_, ?_⟩
  · rw [extractLsb'_append_eq_of_le (by decide)]
    exact extractLsb'_append_eq_right
  · rw [extractLsb'_append_eq_of_le (by decide)]
    exact extractLsb'_append_eq_left

end

theorem State.csr_reset (w : StatusWord) : State.reset.csr w = 0x0000#16 := by cases w <;> rfl

/-! ## `RDR` (R101) -/

theorem exec_rdr_of_statusNumber {n : Byte} {w : StatusWord} (h : statusNumber n = some w) (s : State) :
    exec (.rdr n) s = .next { s with resp := s.csr w } := by
  rw [exec_rdr, h]
  rfl

theorem exec_rdr_reset {n : Byte} (hn : n.toNat < 4) :
    exec (.rdr n) State.reset = .next { State.reset with resp := 0x0000#16 } := by
  cases h : statusNumber n with
  | none => exact absurd ((statusNumber_none_iff n).mp h) (Nat.not_le_of_lt hn)
  | some w => rw [exec_rdr_of_statusNumber h, State.csr_reset]

/-- Settles O26: the four answers are the four status words, and the rest is the layout of each, its value at reset, and
the illegal word's own path. -/
theorem rdrReadsTheStatusWords : Obligations.RdrReadsTheStatusWords := by
  refine ⟨fun s => ?_, fun n => exec_rdr_reset, commandOf_eq_or 0x80#8, fun s n hn => ?_⟩
  · have hread : exec (.rdr 0#8) s = .next { s with resp := s.csr .status } ∧
        exec (.rdr 1#8) s = .next { s with resp := s.csr .crcr } ∧
        exec (.rdr 2#8) s = .next { s with resp := s.csr .b64st } ∧
        exec (.rdr 3#8) s = .next { s with resp := s.csr .adrst } :=
      ⟨exec_rdr_of_statusNumber rfl s, exec_rdr_of_statusNumber rfl s, exec_rdr_of_statusNumber rfl s,
        exec_rdr_of_statusNumber rfl s⟩
    exact ⟨_, _, _, _, hread, s.csr_status_fields, rfl, s.csr_b64st_fields, s.csr_adrst_fields⟩
  · have hillegal : (Instr.rdr n).wellFormed = false := not_wellFormed_of_operandCount_le hn
    exact ⟨exec_illegal_running hillegal, exec_illegal_faulted hillegal⟩

/-! ## `INIT` (R100) -/

theorem State.memRead_toReset_ea (s : State) {a : Nat} (h : 1 ≤ a) : s.toReset.memRead .ea a = blankByte :=
  if_neg (Nat.ne_of_gt h)

/-- Settles O25: `INIT` answers `toReset`, which sees nothing but the events still to come; its opcode with another operand
is illegal; and in the fault state any other command changes at most `RESP`. -/
theorem initGivesTheResetState : Obligations.InitGivesTheResetState := by
  refine ⟨rfl, fun s imm rest himm hin => ?_, fun i s t hf hexec ht => ?_, fun s => ?_⟩
  · have hstep : step s = ({ s with input := rest } : State).illegalCommand 0x01#8 := by
      rw [step_of_illegal hin (not_legal_commandOf_of_operand_ne_zero (by decide) himm), opField_commandOf]
    rw [hstep]
    exact ⟨fun hr => State.illegalCommand_running (s := { s with input := rest }) hr _,
      fun hf => State.illegalCommand_faulted (s := { s with input := rest }) hf _⟩
  · by_contra hi
    obtain ⟨r, hnext, -⟩ := faultStateChangesOnlyTheResponse i s hf hi
    rw [hexec] at hnext
    cases hnext
    exact hf ht
  · exact ⟨s.toReset, exec_init s, rfl, rfl, rfl, rfl, rfl, rfl, rfl, rfl, rfl, rfl, rfl, s.toReset.memRead_ea_zero,
      fun _ hlo _ => s.memRead_toReset_ea hlo, fun a _ => s.memRead_toReset_txt a⟩

/-! ## A byte, zero-extended, as the answer of a read -/

theorem extractLsb_high_of_zeroExtended (b : Byte) : (b.setWidth 16).extractLsb 15 8 = 0x00#8 := by
  apply BitVec.eq_of_getLsbD_eq
  simp

theorem extractLsb_low_of_zeroExtended (b : Byte) : (b.setWidth 16).extractLsb 7 0 = b :=
  (BitVec.extractLsb_setWidth_of_lt (by decide)).trans BitVec.extractLsb'_eq_self

/-! ## `RDE` (R102) -/

/-- `EA[0]` is hardwired (R31). -/
theorem exec_rde_zero (s : State) : exec (.rde 0#8) s = .next { s with resp := 0x0051#16 } :=
  exec_rde_ok (by decide) s

/-- Settles O27: the answer within the space, the hardwired cell, and the illegal word's own path past the end. -/
theorem rdeReadsOneByteOfTheAddress : Obligations.RdeReadsOneByteOfTheAddress := by
  intro s a
  have hillegal (ha : 36 ≤ a.toNat) : (Instr.rde a).wellFormed = false := not_wellFormed_of_operandCount_le ha
  refine ⟨commandOf_eq_or 0x81#8 a, exec_rde_zero s, fun ha => ?_, fun ha => exec_illegal_running (hillegal ha),
    fun ha => exec_illegal_faulted (hillegal ha)⟩
  exact ⟨_, exec_rde_ok (Nat.lt_succ_of_le ha) s, extractLsb_high_of_zeroExtended _, extractLsb_low_of_zeroExtended _⟩

/-! ## `RDT` (R103) -/

/-- Settles O28: the answer within the space, which R26 makes zero from `TLEN` on, and the illegal word's own path past the
end. -/
theorem rdtReadsOneCharacterOfTheText : Obligations.RdtReadsOneCharacterOfTheText := by
  intro s a
  have hillegal (ha : 48 ≤ a.toNat) : (Instr.rdt a).wellFormed = false := not_wellFormed_of_operandCount_le ha
  refine ⟨commandOf_eq_or 0x82#8 a, fun ha => ?_, fun ha => exec_illegal_running (hillegal ha),
    fun ha => exec_illegal_faulted (hillegal ha)⟩
  refine ⟨_, exec_rdt_ok (Nat.lt_succ_of_le ha) s, extractLsb_high_of_zeroExtended _, extractLsb_low_of_zeroExtended _,
    fun hinv hlen => ?_⟩
  rw [hinv.txt_blank a.toNat hlen]
  rfl

end Sys2Proof.Machine
end

section
/-! PROOFS. The laws of the checksum (R113). One shift step is linear over exclusive or, and shifts a register whose top bit
is clear; the rest follows from these two facts. -/

namespace Sys2Proof.Machine

/-! ## The two facts about the shift steps (R110) -/

theorem crcBit_xor (c d : Word) : crcBit (c ^^^ d) = crcBit c ^^^ crcBit d := by
  simp only [crcBit, BitVec.getLsbD_xor, BitVec.shiftLeft_xor_distrib]
  cases c.getLsbD 15 <;> cases d.getLsbD 15
  · rfl
  · exact BitVec.xor_assoc _ _ _
  · show c <<< 1 ^^^ d <<< 1 ^^^ crcPoly = c <<< 1 ^^^ crcPoly ^^^ d <<< 1
    rw [BitVec.xor_assoc, BitVec.xor_assoc, BitVec.xor_comm crcPoly]
  · show c <<< 1 ^^^ d <<< 1 = c <<< 1 ^^^ crcPoly ^^^ (d <<< 1 ^^^ crcPoly)
    rw [BitVec.xor_comm (d <<< 1) crcPoly, BitVec.xor_assoc, ← BitVec.xor_assoc crcPoly, BitVec.xor_self, BitVec.zero_xor]

theorem crcBits_xor (n : Nat) (c d : Word) : crcBits n (c ^^^ d) = crcBits n c ^^^ crcBits n d := by
  induction n generalizing c d with
  | zero => rfl
  | succ n ih => rw [crcBits, crcBit_xor, ih, crcBits, crcBits]

/-- While no set bit reaches bit 15, the shift steps only shift. -/
theorem crcBits_eq_shiftLeft {n : Nat} {c : Word} (h : ∀ i, 16 ≤ i + n → c.getLsbD i = false) :
    crcBits n c = c <<< n := by
  induction n generalizing c with
  | zero => exact (BitVec.shiftLeft_zero c).symm
  | succ n ih =>
    have htop : c.getLsbD 15 = false := h 15 (by omega)
    have hshift : crcBit c = c <<< 1 := if_neg (by rw [htop]; exact Bool.false_ne_true)
    rw [crcBits, hshift, ih, ← BitVec.shiftLeft_add, Nat.add_comm]
    intro i hi
    simp only [BitVec.getLsbD_shiftLeft]
    by_cases h0 : i < 1
    · simp [h0]
    · simp [h (i - 1) (by omega)]

/-- The eight shift steps move a byte that stands in the low half to the high half. -/
theorem crcBits_lowByte (b : Byte) : crcBits 8 (b.setWidth 16) = b.setWidth 16 <<< 8 :=
  crcBits_eq_shiftLeft fun i hi => by simp [BitVec.getLsbD_of_ge b i (by omega)]

/-! ## The two halves of the register -/

theorem xor_highByte (c : Word) : c ^^^ ((highByte c).setWidth 16 <<< 8) = (lowByte c).setWidth 16 := by
  apply BitVec.eq_of_getLsbD_eq
  intro i hi
  simp only [highByte, lowByte, BitVec.getLsbD_xor, BitVec.getLsbD_shiftLeft, BitVec.getLsbD_setWidth,
    BitVec.getLsbD_extractLsb]
  by_cases h8 : i < 8
  · simp [h8, hi]
  · have hindex : 8 + (i - 8) = i := by omega
    simp [h8, hi, hindex, show i - 8 < 16 by omega, show i - 8 < 8 by omega]

theorem lowByte_shiftLeft (c : Word) : (lowByte c).setWidth 16 <<< 8 = c <<< 8 := by
  apply BitVec.eq_of_getLsbD_eq
  intro i hi
  simp only [lowByte, BitVec.getLsbD_shiftLeft, BitVec.getLsbD_setWidth, BitVec.getLsbD_extractLsb]
  simp [show i - 8 < 16 by omega, show i - 8 < 8 by omega]

/-! ## One byte (R111) -/

theorem crcByte_xor (c d : Word) (a b : Byte) : crcByte (c ^^^ d) (a ^^^ b) = crcByte c a ^^^ crcByte d b := by
  have hhalves : c ^^^ d ^^^ ((a ^^^ b).setWidth 16 <<< 8) =
      (c ^^^ (a.setWidth 16 <<< 8)) ^^^ (d ^^^ (b.setWidth 16 <<< 8)) := by
    rw [BitVec.setWidth_xor, BitVec.shiftLeft_xor_distrib]
    ac_rfl
  rw [crcByte, hhalves, crcBits_xor, crcByte, crcByte]

theorem crcByte_zero : crcByte 0x0000#16 0x00#8 = 0x0000#16 := by decide

/-- A byte equal to the register's high half cancels it, and the low half moves up. -/
theorem crcByte_highByte (c : Word) : crcByte c (highByte c) = (lowByte c).setWidth 16 <<< 8 := by
  rw [crcByte, xor_highByte, crcBits_lowByte]

/-- The table form: `b` is the high half and what it differs by. -/
theorem crcByte_eq_table (c : Word) (b : Byte) : crcByte c b = (c <<< 8) ^^^ crcTable (highByte c ^^^ b) := by
  have hb : b = highByte c ^^^ (highByte c ^^^ b) := by
    rw [← BitVec.xor_assoc, BitVec.xor_self, BitVec.zero_xor]
  calc crcByte c b = crcByte (c ^^^ 0x0000#16) (highByte c ^^^ (highByte c ^^^ b)) := by rw [BitVec.xor_zero, ← hb]
    _ = (c <<< 8) ^^^ crcTable (highByte c ^^^ b) := by
      rw [crcByte_xor, crcByte_highByte, lowByte_shiftLeft, crcTable]

/-- A byte in the high half, met by itself, is gone. -/
theorem crcByte_shifted_self (b : Byte) : crcByte (b.setWidth 16 <<< 8) b = 0x0000#16 := by
  rw [crcByte, BitVec.xor_self]
  rfl

/-! ## Sequences (R112) -/

theorem crcSeq_replicate_zero_append (n : Nat) (s : List Byte) :
    crcSeq (List.replicate n 0x00#8 ++ s) = crcSeq s := by
  induction n with
  | zero => rfl
  | succ n ih =>
    rw [← ih, List.replicate_succ, List.cons_append, crcSeq, List.foldl_cons, crcInit, crcByte_zero]
    rfl

theorem crcSeq_withChecksum (s : List Byte) : crcSeq (withChecksum s) = 0x0000#16 := by
  have hfold : crcSeq (withChecksum s) = crcByte (crcByte (crcSeq s) (highByte (crcSeq s))) (lowByte (crcSeq s)) :=
    List.foldl_append
  rw [hfold, crcByte_highByte, crcByte_shifted_self]

/-- Settles O31: one lemma for each law of R113. -/
theorem checksumLaws : Obligations.ChecksumLaws :=
  ⟨crcByte_xor, ⟨crcByte_zero, crcSeq_replicate_zero_append⟩, crcByte_eq_table, crcByte_highByte, crcSeq_withChecksum⟩

end Sys2Proof.Machine
end

section
/-! PROOFS. The commands of the CRC unit (R114 to R116). `CRC.EMIT` and `B64.PUSH` append a run of bytes to the text alike,
so that one law of runs, one after another, compares them. -/

namespace Sys2Proof.Machine

/-- Format N (Table E2): the decoder rejects an operand that is not zero. -/
theorem decode_error_of_operand_ne_zero {op imm : Byte}
    (hop : op ∈ [0x01#8, 0x10#8, 0x12#8, 0x20#8, 0x22#8, 0x32#8]) (himm : imm ≠ 0x00#8) :
    ∃ e, decode (commandOf op imm) = .error e := by
  cases hdecode : decode (commandOf op imm) with
  | error e => exact ⟨e, rfl⟩
  | ok i =>
    have hlegal := (legal_iff_decode_ok _).mpr ⟨i, hdecode⟩
    rw [not_legal_commandOf_of_operand_ne_zero hop himm] at hlegal
    cases hlegal

/-! ## `CRC.CLR` (R114) -/

/-- Settles O29: the one word of the command, and the command on both sides of the gate. -/
theorem crcClrClearsTheRegister : Obligations.CrcClrClearsTheRegister :=
  ⟨⟨rfl, fun _ => decode_error_of_operand_ne_zero (by decide)⟩,
    fun _ => ⟨exec_crcClr, fun hf => State.gate_faulted hf _⟩⟩

/-! ## `CRC.UPD` (R115) -/

theorem runCommands_crcUpd {s : State} (hr : s.err = 0#3) (bs : List Byte) :
    runCommands (bs.map .crcUpd) s = .next { s with crc := bs.foldl crcByte s.crc } := by
  induction bs generalizing s with
  | nil => rfl
  | cons b bs ih =>
    rw [List.map_cons, runCommands_cons_andThen, exec_crcUpd hr, Step.andThen_next]
    exact ih hr

/-- Settles O30: a run of `CRC.UPD` folds its bytes from any value of the register, so from the one `CRC.CLR` leaves. -/
theorem crcUpdFoldsBytes : Obligations.CrcUpdFoldsBytes := by
  refine ⟨fun b => ?_, fun s b => ⟨fun hr => exec_crcUpd hr b, fun hf => State.gate_faulted hf _⟩,
    fun s bs hr => ⟨?_, runCommands_crcUpd hr bs⟩⟩
  · have hword : encode (.crcUpd b) = 0x1100#16 ||| b.setWidth 16 := commandOf_eq_or 0x11#8 b
    exact ⟨hword, hword ▸ decode_encode (.crcUpd b)⟩
  · rw [runCommands_cons_andThen, exec_crcClr hr, Step.andThen_next]
    exact runCommands_crcUpd (s := { s with crc := crcInit }) hr bs

/-! ## A run of bytes appended to the text (R133) -/

theorem streamPh_append (ph : BitVec 2) (bs ds : List Byte) : streamPh ph (bs ++ ds) = streamPh (streamPh ph bs) ds := by
  induction bs generalizing ph with
  | nil => rfl
  | cons b bs ih => exact ih _

theorem streamAcc_append (ph : BitVec 2) (acc : BitVec 4) (bs ds : List Byte) :
    streamAcc ph acc (bs ++ ds) = streamAcc (streamPh ph bs) (streamAcc ph acc bs) ds := by
  induction bs generalizing ph acc with
  | nil => rfl
  | cons b bs ih =>
    simp only [List.cons_append, streamAcc, streamPh]
    split_ifs <;> exact ih _ _

theorem streamText_append (ph : BitVec 2) (acc : BitVec 4) (bs ds : List Byte) :
    streamText ph acc (bs ++ ds) = streamText ph acc bs ++ streamText (streamPh ph bs) (streamAcc ph acc bs) ds := by
  induction bs generalizing ph acc with
  | nil => rfl
  | cons b bs ih =>
    simp only [List.cons_append, streamText, streamAcc, streamPh]
    split_ifs <;> simp only [ih, List.cons_append]

/-- The state after a command that appends a run of bytes. -/
def State.streamed (s : State) (bs : List Byte) : State :=
  { s.appendChars (streamText s.ph s.acc bs) with
    ph := streamPh s.ph bs, acc := streamAcc s.ph s.acc bs, done := false }

/-- The characters of a run of bytes fit the text (R134). -/
def State.HasRoomFor (s : State) (bs : List Byte) : Prop := s.tlen.toNat + (streamText s.ph s.acc bs).length ≤ 48

theorem State.hasRoomFor_iff {s : State} (hp : s.ph ≠ 3#2) (bs : List Byte) :
    s.HasRoomFor bs ↔ s.tlen.toNat + nchars s.ph.toNat bs.length ≤ 48 := by
  rw [State.HasRoomFor, streamText_length hp]

theorem State.streamed_tlen {s : State} {bs : List Byte} (hroom : s.HasRoomFor bs) :
    (s.streamed bs).tlen.toNat = s.tlen.toNat + (streamText s.ph s.acc bs).length :=
  State.appendChars_tlen hroom

theorem State.streamed_memRead_txt {s : State} {bs : List Byte} (hroom : s.HasRoomFor bs) {a : Nat}
    (ha : a < s.tlen.toNat ∨ (s.streamed bs).tlen.toNat ≤ a) : (s.streamed bs).memRead .txt a = s.memRead .txt a := by
  have htlen := State.streamed_tlen hroom
  exact s.appendChars_memRead_txt (streamText s.ph s.acc bs) (by omega)

/-- Two runs one after another are one run of the bytes of both. -/
theorem State.streamed_streamed {s : State} {bs : List Byte} (hroom : s.HasRoomFor bs) (ds : List Byte) :
    (s.streamed bs).streamed ds = s.streamed (bs ++ ds) := by
  rw [State.streamed.eq_def s (bs ++ ds), streamText_append, streamPh_append, streamAcc_append,
    ← State.appendChars_append hroom]
  rfl

theorem State.hasRoomFor_append {s : State} {bs ds : List Byte} (hroom : s.HasRoomFor (bs ++ ds)) :
    s.HasRoomFor bs ∧ (s.streamed bs).HasRoomFor ds := by
  rw [State.HasRoomFor, streamText_append, List.length_append, ← Nat.add_assoc] at hroom
  have hfirst : s.HasRoomFor bs := Nat.le_of_add_right_le hroom
  refine ⟨hfirst, ?_⟩
  rw [State.HasRoomFor, State.streamed_tlen hfirst]
  exact hroom

theorem exec_b64Push_streamed {s : State} (hr : s.err = 0#3) (hp : s.ph ≠ 3#2) {b : Byte} (hroom : s.HasRoomFor [b]) :
    exec (.b64Push b) s = .next (s.streamed [b]) := by
  rw [exec_b64Push hr hp b ((State.hasRoomFor_iff hp _).mp hroom), State.streamed, State.appendChars, streamText_length hp]
  rfl

/-! ## `CRC.EMIT` (R116) -/

theorem exec_crcEmit_streamed {s : State} (hr : s.err = 0#3) (hp : s.ph ≠ 3#2)
    (hroom : s.HasRoomFor [highByte s.crc, lowByte s.crc]) :
    exec .crcEmit s = .next (s.streamed [highByte s.crc, lowByte s.crc]) := by
  rw [exec_crcEmit hr hp ((State.hasRoomFor_iff hp _).mp hroom), State.streamed, State.appendChars, streamText_length hp]
  rfl

/-- Two `B64.PUSH`, one after another, append the run of both bytes. -/
theorem exec_b64Push_pair {s : State} (hr : s.err = 0#3) (hp : s.ph ≠ 3#2) {b d : Byte} (hroom : s.HasRoomFor [b, d]) :
    exec (.b64Push b) s = .next (s.streamed [b]) ∧ exec (.b64Push d) (s.streamed [b]) = .next (s.streamed [b, d]) := by
  obtain ⟨hfirst, hsecond⟩ := State.hasRoomFor_append (bs := [b]) (ds := [d]) hroom
  have hphase : (s.streamed [b]).ph ≠ 3#2 := streamPh_legal hp [b]
  refine ⟨exec_b64Push_streamed hr hp hfirst, ?_⟩
  rw [exec_b64Push_streamed (s := s.streamed [b]) hr hphase hsecond, State.streamed_streamed hfirst]
  rfl

/-- Settles O32: where both bytes fit, the command appends the run of both, as the two pushes do; otherwise the one overflow
test leaves the text as it is. -/
theorem crcEmitAppendsTheChecksum : Obligations.CrcEmitAppendsTheChecksum := by
  refine ⟨⟨rfl, fun _ => decode_error_of_operand_ne_zero (by decide)⟩, fun s n hp hn => ?_⟩
  have hcount : nchars s.ph.toNat 2 = n := (nchars_two hp).trans hn.symm
  refine ⟨fun hr hfit => ?_, fun hr hover => ?_, fun hf => State.gate_faulted hf _⟩
  · have hroom : s.HasRoomFor [highByte s.crc, lowByte s.crc] :=
      (State.hasRoomFor_iff hp _).mpr (hcount.symm ▸ hfit)
    obtain ⟨hhigh, hlow⟩ := exec_b64Push_pair hr hp hroom
    refine ⟨_, _, hhigh, hlow, exec_crcEmit_streamed hr hp hroom, rfl, streamPh_toNat hp _, ?_,
      fun a => State.streamed_memRead_txt hroom⟩
    rw [State.streamed_tlen hroom, streamText_length hp, ← hcount]
    rfl
  · exact State.appending_overflow hr (hcount.symm ▸ hover) _

end Sys2Proof.Machine
end

section
/-! PROOFS. The text of a byte sequence as a function (R130, R131, R138 to R141): its length, its characters, and the way
back, which reads the text as the bit string R131 cuts into 6-bit groups. -/

namespace Sys2Proof.Machine

/-! ## The length (R139) -/

theorem b64url_length (s : List Byte) : (b64url s).length = (4 * s.length + 2) / 3 := by
  induction s using b64url.induct with
  | case1 => rfl
  | case2 b0 => simp only [b64url, List.length_cons, List.length_nil]
  | case3 b0 b1 => simp only [b64url, List.length_cons, List.length_nil]
  | case4 b0 b1 b2 rest ih =>
    simp only [b64url, List.length_cons, ih]
    omega

/-- Settles O37: the ceiling is the law above, and the count by whole groups and leftover bytes is that same number. -/
theorem textLengthLaw : Obligations.TextLengthLaw := by
  refine ⟨fun s => ⟨?_, b64url_length s⟩, fun s hs => by rw [b64url_length, hs], by decide, rfl⟩
  rw [b64url_length]
  split_ifs <;> omega

/-! ## The alphabet (R130, R140) -/

theorem alphaInverse_alpha : ∀ i : BitVec 6, alphaInverse (alpha i) = some i := by decide

theorem alpha_injective {i j : BitVec 6} (h : alpha i = alpha j) : i = j := by
  have hinverse : some i = some j := by rw [← alphaInverse_alpha i, h, alphaInverse_alpha j]
  exact Option.some.inj hinverse

/-- Settles O39: neither the padding character nor the code of an empty cell is one of the alphabet. -/
theorem textHoldsOnlyAlphabetCharacters : Obligations.TextHoldsOnlyAlphabetCharacters := by
  refine ⟨fun s c hc => ?_, fun i j => alpha_injective⟩
  have halpha : inAlphabet c = true := inAlphabet_of_mem_b64url c hc
  exact ⟨halpha, by rintro rfl; exact absurd halpha (by decide), by rintro rfl; exact absurd halpha (by decide)⟩

/-! ## The bit string of a text (R131, R141) -/

/-- The eight bits of a byte, the most significant first (R131). -/
def bitsOfByte (b : Byte) : List Bool :=
  [b.getLsbD 7, b.getLsbD 6, b.getLsbD 5, b.getLsbD 4, b.getLsbD 3, b.getLsbD 2, b.getLsbD 1, b.getLsbD 0]

theorem byteOfBits_getLsbD : ∀ b : Byte,
    byteOfBits (b.getLsbD 7) (b.getLsbD 6) (b.getLsbD 5) (b.getLsbD 4) (b.getLsbD 3) (b.getLsbD 2) (b.getLsbD 1)
      (b.getLsbD 0) = b := by decide

theorem bytesOfBits_bitsOfByte_append (b : Byte) (bits : List Bool) :
    bytesOfBits (bitsOfByte b ++ bits) = b :: bytesOfBits bits := by
  simp only [bitsOfByte, List.cons_append, List.nil_append, bytesOfBits, byteOfBits_getLsbD]

/-- Fewer than eight bits make no byte. -/
theorem bytesOfBits_replicate_of_lt {n : Nat} (h : n < 8) : bytesOfBits (List.replicate n false) = [] := by
  revert n
  decide

theorem bytesOfBits_flatMap_append (s : List Byte) {bits : List Bool} (h : bytesOfBits bits = []) :
    bytesOfBits (s.flatMap bitsOfByte ++ bits) = s := by
  induction s with
  | nil => exact h
  | cons b s ih => rw [List.flatMap_cons, List.append_assoc, bytesOfBits_bitsOfByte_append, ih]

theorem bitsOfText_alpha_cons (v : BitVec 6) (t : List Byte) :
    bitsOfText (alpha v :: t) = (bitsOfText t).map (bitsOfSextet v ++ ·) := by
  rw [bitsOfText, alphaInverse_alpha]
  cases bitsOfText t <;> rfl

/-- Two bits of a byte and four of the next, as in the second value of a group. -/
theorem bitsOfSextet_two_four : ∀ (x : BitVec 2) (y : BitVec 4),
    bitsOfSextet (x ++ y) =
      [x.getLsbD 1, x.getLsbD 0, y.getLsbD 3, y.getLsbD 2, y.getLsbD 1, y.getLsbD 0] := by decide

/-- Four bits of a byte and two of the next, as in the third value of a group. -/
theorem bitsOfSextet_four_two : ∀ (x : BitVec 4) (y : BitVec 2),
    bitsOfSextet (x ++ y) =
      [x.getLsbD 3, x.getLsbD 2, x.getLsbD 1, x.getLsbD 0, y.getLsbD 1, y.getLsbD 0] := by decide

theorem bitsOfSextet_sextet0 (b : Byte) :
    bitsOfSextet (sextet0 b) =
      [b.getLsbD 7, b.getLsbD 6, b.getLsbD 5, b.getLsbD 4, b.getLsbD 3, b.getLsbD 2] := by
  simp [bitsOfSextet, sextet0]

theorem bitsOfSextet_sextet3 (b : Byte) :
    bitsOfSextet (sextet3 b) =
      [b.getLsbD 5, b.getLsbD 4, b.getLsbD 3, b.getLsbD 2, b.getLsbD 1, b.getLsbD 0] := by
  simp [bitsOfSextet, sextet3]

theorem bitsOfSextet_low_two (b : Byte) (y : BitVec 4) :
    bitsOfSextet (b.extractLsb 1 0 ++ y) =
      [b.getLsbD 1, b.getLsbD 0, y.getLsbD 3, y.getLsbD 2, y.getLsbD 1, y.getLsbD 0] :=
  (bitsOfSextet_two_four (b.extractLsb 1 0) y).trans (by simp)

theorem bitsOfSextet_low_four (b : Byte) (y : BitVec 2) :
    bitsOfSextet (b.extractLsb 3 0 ++ y) =
      [b.getLsbD 3, b.getLsbD 2, b.getLsbD 1, b.getLsbD 0, y.getLsbD 1, y.getLsbD 0] :=
  (bitsOfSextet_four_two (b.extractLsb 3 0) y).trans (by simp)

theorem bitsOfSextet_sextet1 (b0 b1 : Byte) :
    bitsOfSextet (sextet1 b0 b1) =
      [b0.getLsbD 1, b0.getLsbD 0, b1.getLsbD 7, b1.getLsbD 6, b1.getLsbD 5, b1.getLsbD 4] :=
  (bitsOfSextet_low_two b0 (b1.extractLsb 7 4)).trans (by simp)

theorem bitsOfSextet_sextet2 (b1 b2 : Byte) :
    bitsOfSextet (sextet2 b1 b2) =
      [b1.getLsbD 3, b1.getLsbD 2, b1.getLsbD 1, b1.getLsbD 0, b2.getLsbD 7, b2.getLsbD 6] :=
  (bitsOfSextet_low_four b1 (b2.extractLsb 7 6)).trans (by simp)

/-- The characters of a text are its bytes' bits, six at a time, the last group filled with zero bits (R131). -/
theorem bitsOfText_b64url (s : List Byte) :
    ∃ n < 8, bitsOfText (b64url s) = some (s.flatMap bitsOfByte ++ List.replicate n false) := by
  induction s using b64url.induct with
  | case1 => exact ⟨0, by decide, rfl⟩
  | case2 b0 =>
    refine ⟨4, by decide, ?_⟩
    rw [b64url, bitsOfText_alpha_cons, bitsOfText_alpha_cons, bitsOfSextet_sextet0, bitsOfSextet_low_two]
    rfl
  | case3 b0 b1 =>
    refine ⟨2, by decide, ?_⟩
    rw [b64url, bitsOfText_alpha_cons, bitsOfText_alpha_cons, bitsOfText_alpha_cons, bitsOfSextet_sextet0,
      bitsOfSextet_sextet1, bitsOfSextet_low_four]
    rfl
  | case4 b0 b1 b2 rest ih =>
    obtain ⟨n, hn, ih⟩ := ih
    refine ⟨n, hn, ?_⟩
    rw [b64url, bitsOfText_alpha_cons, bitsOfText_alpha_cons, bitsOfText_alpha_cons, bitsOfText_alpha_cons, ih,
      bitsOfSextet_sextet0, bitsOfSextet_sextet1, bitsOfSextet_sextet2, bitsOfSextet_sextet3]
    rfl

theorem unb64url_b64url (s : List Byte) : unb64url (b64url s) = some s := by
  obtain ⟨n, hn, hbits⟩ := bitsOfText_b64url s
  rw [unb64url, hbits, Option.map_some, bytesOfBits_flatMap_append s (bytesOfBits_replicate_of_lt hn)]

theorem b64url_injective {s t : List Byte} (h : b64url s = b64url t) : s = t := by
  have hinverse : some s = some t := by rw [← unb64url_b64url s, h, unb64url_b64url t]
  exact Option.some.inj hinverse

/-- Settles O38: the way back gives injectivity at every length, and the length law the count. -/
theorem textDeterminesTheBytes : Obligations.TextDeterminesTheBytes := by
  refine ⟨unb64url_b64url, fun s t _ => b64url_injective, fun s => ?_⟩
  rw [b64url_length]
  omega

end Sys2Proof.Machine
end

section
/-! PROOFS. The commands of the base64url unit (R135 to R138). Each appends to the text, so a read of the appended
characters is settled first, and the runs of the streamed message compose. -/

namespace Sys2Proof.Machine

/-! ## What a read sees of appended characters (R133) -/

theorem State.appendChars_memRead_at (s : State) (cs : List Byte) {i : Nat} (hi : i < cs.length) :
    (s.appendChars cs).memRead .txt (s.tlen.toNat + i) = cs[i] := by
  have hcell : s.tlen.toNat ≤ s.tlen.toNat + i ∧ s.tlen.toNat + i - s.tlen.toNat < cs.length := by omega
  refine (Memory.read_writeAll _ _ _ _).trans ((dif_pos hcell).trans ?_)
  simp only [Nat.add_sub_cancel_left]

@[simp] theorem State.appendChars_nil (s : State) : s.appendChars [] = s := by
  simp [State.appendChars, Memory.writeAll]

/-- One character appended is seen at `TXT[TLEN]` and nowhere else. -/
theorem State.appendChars_one_memRead (s : State) (c : Byte) :
    (s.appendChars [c]).memRead .txt s.tlen.toNat = c ∧
      ∀ a, a ≠ s.tlen.toNat → (s.appendChars [c]).memRead .txt a = s.memRead .txt a := by
  refine ⟨s.appendChars_memRead_at [c] (i := 0) Nat.zero_lt_one, fun a ha => s.appendChars_memRead_txt [c] ?_⟩
  rw [List.length_singleton]
  omega

/-- Two characters appended are seen at `TXT[TLEN]` and `TXT[TLEN + 1]` and nowhere else. -/
theorem State.appendChars_two_memRead (s : State) (c d : Byte) :
    (s.appendChars [c, d]).memRead .txt s.tlen.toNat = c ∧
      (s.appendChars [c, d]).memRead .txt (s.tlen.toNat + 1) = d ∧
      ∀ a, a ≠ s.tlen.toNat → a ≠ s.tlen.toNat + 1 →
        (s.appendChars [c, d]).memRead .txt a = s.memRead .txt a := by
  refine ⟨s.appendChars_memRead_at [c, d] (i := 0) Nat.zero_lt_two,
    s.appendChars_memRead_at [c, d] (i := 1) Nat.one_lt_two, fun a ha ha' => s.appendChars_memRead_txt [c, d] ?_⟩
  rw [List.length_cons, List.length_singleton]
  omega

/-! ## `B64.CLR` (R135) -/

/-- The state after `B64.CLR`, outside the fault state. -/
def State.blanked (s : State) : State := { s.clearText with done := false }

theorem State.blanked_ph_legal (s : State) : s.blanked.ph ≠ 3#2 := bitsLegal_between_groups.phase

theorem State.blanked_appendChars_tlen (s : State) {cs : List Byte} (h : cs.length ≤ 48) :
    (s.blanked.appendChars cs).tlen.toNat = cs.length := by
  have hzero : s.blanked.tlen.toNat + cs.length = cs.length := Nat.zero_add cs.length
  rw [State.appendChars_tlen (hzero.trans_le h), hzero]

theorem exec_b64Clr_blanked {s : State} (hr : s.err = 0#3) : exec .b64Clr s = .next s.blanked := exec_b64Clr hr

/-- Settles O33: the one word of the command, and the command on both sides of the gate. -/
theorem b64ClrEmptiesTheText : Obligations.B64ClrEmptiesTheText :=
  ⟨⟨rfl, fun _ => decode_error_of_operand_ne_zero (by decide)⟩,
    fun s => ⟨fun hr => ⟨_, exec_b64Clr_blanked hr, rfl, s.memRead_clearText_txt⟩, fun hf => State.gate_faulted hf _⟩⟩

/-! ## `B64.PUSH` (R136) -/

/-- Where its characters fit, a push appends what the phase makes of its byte (R133). -/
theorem exec_b64Push_at {s : State} {ph : BitVec 2} (hr : s.err = 0#3) (hp : s.ph = ph) (hlegal : ph ≠ 3#2)
    (hfit : s.tlen.toNat + nchars ph.toNat 1 ≤ 48) (b : Byte) :
    exec (.b64Push b) s = .next
      { s.appendChars (streamText ph s.acc [b]) with
        acc := streamAcc ph s.acc [b], ph := streamPh ph [b], done := false } := by
  subst hp
  exact exec_b64Push_streamed hr hlegal ((State.hasRoomFor_iff hlegal [b]).mpr hfit)

theorem exec_b64Push_phase0 {s : State} (hr : s.err = 0#3) (hp : s.ph = 0#2) (hfit : s.tlen.toNat ≤ 47) (b : Byte) :
    exec (.b64Push b) s = .next
      { s.appendChars [alpha (b.extractLsb 7 2)] with acc := 0b00#2 ++ b.extractLsb 1 0, ph := 1#2, done := false } :=
  exec_b64Push_at hr hp (by decide) (Nat.succ_le_succ hfit) b

theorem exec_b64Push_phase1 {s : State} (hr : s.err = 0#3) (hp : s.ph = 1#2) (hfit : s.tlen.toNat ≤ 47) (b : Byte) :
    exec (.b64Push b) s = .next
      { s.appendChars [alpha (s.acc.extractLsb 1 0 ++ b.extractLsb 7 4)] with
        acc := b.extractLsb 3 0, ph := 2#2, done := false } :=
  exec_b64Push_at hr hp (by decide) (Nat.succ_le_succ hfit) b

theorem exec_b64Push_phase2 {s : State} (hr : s.err = 0#3) (hp : s.ph = 2#2) (hfit : s.tlen.toNat ≤ 46) (b : Byte) :
    exec (.b64Push b) s = .next
      { s.appendChars [alpha (s.acc ++ b.extractLsb 7 6), alpha (b.extractLsb 5 0)] with
        acc := 0#4, ph := 0#2, done := false } := by
  have hacc : s.acc ++ b.extractLsb 7 6 = s.acc.extractLsb 3 0 ++ b.extractLsb 7 6 := by rw [acc_whole]
  rw [hacc]
  exact exec_b64Push_at hr hp (by decide) (Nat.add_le_add_right hfit 2) b

theorem exec_b64Push_overflow {s : State} (hr : s.err = 0#3)
    (ho : (s.ph = 2#2 ∧ 46 < s.tlen.toNat) ∨ (s.ph ≠ 2#2 ∧ 47 < s.tlen.toNat)) (b : Byte) :
    exec (.b64Push b) s = .next (s.raiseFault .txtOverflow (s.tlen.setWidth 8)) := by
  refine State.appending_overflow hr ?_ _
  rw [nchars_one]
  obtain ⟨hp, ho⟩ | ⟨hp, ho⟩ := ho
  · rw [if_pos (by rw [hp]; rfl)]
    omega
  · have hne : ¬ s.ph.toNat = 2 := fun h => hp (BitVec.eq_of_toNat_eq h)
    rw [if_neg hne]
    omega

/-- Settles O34: one equation for each phase with what a read sees of its characters, the overflow test, and the gate. -/
theorem b64PushEncodesOneByte : Obligations.B64PushEncodesOneByte := by
  refine ⟨fun b => ?_, fun s b => ⟨fun hr hp hfit => ?_, fun hr hp hfit => ?_, fun hr hp hfit => ?_,
    fun hr ho => exec_b64Push_overflow hr ho b, fun hf => State.gate_faulted hf _⟩⟩
  · have hword : encode (.b64Push b) = 0x2100#16 ||| b.setWidth 16 := commandOf_eq_or 0x21#8 b
    exact ⟨hword, hword ▸ decode_encode (.b64Push b)⟩
  · exact ⟨_, exec_b64Push_phase0 hr hp hfit b, rfl, s.appendChars_one_memRead _⟩
  · exact ⟨_, exec_b64Push_phase1 hr hp hfit b, rfl, s.appendChars_one_memRead _⟩
  · exact ⟨_, exec_b64Push_phase2 hr hp hfit b, rfl, s.appendChars_two_memRead _ _⟩

/-! ## `B64.END` (R137) -/

theorem flushText_length {ph : BitVec 2} (h : ph ≠ 3#2) (acc : BitVec 4) :
    (flushText ph acc).length = if ph = 0#2 then 0 else 1 := by
  rcases phase_cases h with rfl | rfl | rfl <;> rfl

/-- The state after `B64.END`, where its character fits. -/
def State.flushed (s : State) : State :=
  { s.appendChars (flushText s.ph s.acc) with acc := 0#4, ph := 0#2, done := false }

theorem exec_b64End_flushed {s : State} (hr : s.err = 0#3) (hp : s.ph ≠ 3#2)
    (hfit : s.tlen.toNat + (flushText s.ph s.acc).length ≤ 48) : exec .b64End s = .next s.flushed := by
  have hlen := flushText_length hp s.acc
  have htlen : (if s.ph = 0#2 then 0#6 else 1#6) = BitVec.ofNat 6 (flushText s.ph s.acc).length := by
    rw [hlen, apply_ite (BitVec.ofNat 6)]
  rw [hlen] at hfit
  rw [exec_b64End hr hp hfit, htlen]
  rfl

theorem exec_b64End_one {s : State} {c : Byte} (hr : s.err = 0#3) (hp : s.ph ≠ 3#2)
    (htext : flushText s.ph s.acc = [c]) (hfit : s.tlen.toNat ≤ 47) :
    exec .b64End s = .next { s.appendChars [c] with acc := 0#4, ph := 0#2, done := false } := by
  rw [exec_b64End_flushed hr hp (by rw [htext]; exact Nat.succ_le_succ hfit), State.flushed, htext]

theorem exec_b64End_overflow {s : State} (hr : s.err = 0#3) (hp : s.ph ≠ 0#2) (ho : 47 < s.tlen.toNat) :
    exec .b64End s = .next (s.raiseFault .txtOverflow (s.tlen.setWidth 8)) := by
  refine State.appending_overflow hr ?_ _
  rw [if_neg hp]
  exact Nat.succ_lt_succ ho

/-- Settles O35: what is left to flush at each phase, with what a read sees of it, the overflow test, and the gate. -/
theorem b64EndFlushesTheLastGroup : Obligations.B64EndFlushesTheLastGroup := by
  refine ⟨⟨rfl, fun _ => decode_error_of_operand_ne_zero (by decide)⟩,
    fun s => ⟨fun hr hp hfit => ?_, fun hr hp hfit => ?_, fun hr hp hfit => ?_,
      fun hr => exec_b64End_overflow hr, fun hf => State.gate_faulted hf _⟩⟩
  · have htext : flushText s.ph s.acc = [] := by rw [hp]; rfl
    rw [exec_b64End_flushed hr (by simp [hp]) (by rwa [htext]), State.flushed, htext, State.appendChars_nil, ← hp]
  · have htext : flushText s.ph s.acc = [alpha (s.acc.extractLsb 1 0 ++ 0b0000#4)] := by rw [hp]; rfl
    exact ⟨_, exec_b64End_one hr (by simp [hp]) htext hfit, rfl, s.appendChars_one_memRead _⟩
  · have htext : flushText s.ph s.acc = [alpha (s.acc ++ 0b00#2)] := by rw [hp, flushText, acc_whole]; rfl
    exact ⟨_, exec_b64End_one hr (by simp [hp]) htext hfit, rfl, s.appendChars_one_memRead _⟩

/-! ## A message, streamed (R138) -/

/-- Pushes that fit append the run of their bytes; `DONE` is asked to be clear because no push is there to clear it when
there is no byte. -/
theorem runCommands_b64Push {s : State} (hr : s.err = 0#3) (hp : s.ph ≠ 3#2) (hd : s.done = false) {bs : List Byte}
    (hroom : s.HasRoomFor bs) : runCommands (bs.map .b64Push) s = .next (s.streamed bs) := by
  induction bs generalizing s with
  | nil => rw [List.map_nil, runCommands_nil, State.streamed, streamText, State.appendChars_nil, ← hd]; rfl
  | cons b bs ih =>
    obtain ⟨hfirst, hrest⟩ := State.hasRoomFor_append (bs := [b]) (ds := bs) hroom
    rw [List.map_cons, runCommands_cons_andThen, exec_b64Push_streamed hr hp hfirst, Step.andThen_next,
      ih (s := s.streamed [b]) hr (streamPh_legal hp [b]) rfl hrest, State.streamed_streamed hfirst]
    rfl

theorem State.raiseFault_faulted (s : State) (c : FaultCode) (info : Byte) : (s.raiseFault c info).err ≠ 0#3 :=
  c.code_ne_zero

/-- Commands that do not pass the gate are discarded in the fault state, one after another (R80). -/
theorem runCommands_discarded {is : List Instr} {s : State} (hf : s.err ≠ 0#3)
    (hop : ∀ i ∈ is, i.opcode ∉ [0x01#8, 0x80#8, 0x81#8, 0x82#8]) : runCommands is s = .next s := by
  induction is with
  | nil => rfl
  | cons i is ih =>
    rw [runCommands_cons_andThen, exec_discarded hf (hop i List.mem_cons_self), Step.andThen_next]
    exact ih fun j hj => hop j (List.mem_cons_of_mem i hj)

/-- Pushes past the end of the text: the first one faults, and the others are discarded. -/
theorem runCommands_b64Push_full {s : State} (hr : s.err = 0#3) (hp : s.ph = 0#2) (hfull : s.tlen.toNat = 48)
    {bs : List Byte} (hbs : bs ≠ []) :
    runCommands (bs.map .b64Push) s = .next (s.raiseFault .txtOverflow 48#8) := by
  obtain ⟨b, rest, rfl⟩ := List.exists_cons_of_ne_nil hbs
  have htlen : s.tlen = 48#6 := BitVec.eq_of_toNat_eq hfull
  have hfault : exec (.b64Push b) s = .next (s.raiseFault .txtOverflow 48#8) := by
    rw [exec_b64Push_overflow hr (.inr ⟨by simp [hp], by omega⟩), htlen]
    rfl
  rw [List.map_cons, runCommands_cons_andThen, hfault, Step.andThen_next]
  exact runCommands_discarded (State.raiseFault_faulted _ _ _) (by simp [Instr.opcode])

/-- The commands of a message, cut into the three parts that each have a law of their own. -/
theorem runCommands_b64Enc (s : State) (bs : List Byte) (hr : s.err = 0#3) :
    runCommands (Pseudo.b64Enc bs).expand s =
      Step.andThen (runCommands (bs.map .b64Push) s.blanked) (runCommands [.b64End]) := by
  rw [← runCommands_append, ← Step.andThen_next s.blanked (runCommands _), ← exec_b64Clr_blanked hr,
    ← runCommands_cons_andThen]
  rfl

theorem State.blanked_hasRoomFor_iff (s : State) (bs : List Byte) :
    s.blanked.HasRoomFor bs ↔ (streamText 0#2 0#4 bs).length ≤ 48 :=
  Nat.zero_add (streamText 0#2 0#4 bs).length ▸ Iff.rfl

/-- The characters streamed from an empty buffer and the flushed one are the text of the message. -/
theorem State.blanked_streamed_flushed {s : State} {bs : List Byte} (hroom : s.blanked.HasRoomFor bs) :
    (s.blanked.streamed bs).flushed = s.blanked.appendChars (b64url bs) := by
  rw [← streamText_b64url]
  exact congrArg (fun u : State => { u with acc := 0#4, ph := 0#2, done := false }) (State.appendChars_append hroom _)

/-- A message that fits leaves its text, and nothing else, in the empty text buffer. -/
theorem runCommands_b64Enc_fits {s : State} (hr : s.err = 0#3) {bs : List Byte} (hfit : (b64url bs).length ≤ 48) :
    runCommands (Pseudo.b64Enc bs).expand s = .next (s.blanked.appendChars (b64url bs)) := by
  rw [← streamText_b64url, List.length_append] at hfit
  have hroom : s.blanked.HasRoomFor bs := (s.blanked_hasRoomFor_iff bs).mpr (by omega)
  have hflush : (s.blanked.streamed bs).tlen.toNat +
      (flushText (streamPh 0#2 bs) (streamAcc 0#2 0#4 bs)).length ≤ 48 := by
    rw [State.streamed_tlen hroom]
    exact (Nat.zero_add (streamText 0#2 0#4 bs).length).symm ▸ hfit
  rw [runCommands_b64Enc s bs hr, runCommands_b64Push (s := s.blanked) hr s.blanked_ph_legal rfl hroom,
    Step.andThen_next, runCommands_cons_andThen,
    exec_b64End_flushed (s := s.blanked.streamed bs) hr (streamPh_legal s.blanked_ph_legal bs) hflush,
    State.blanked_streamed_flushed hroom, Step.andThen_next, runCommands_nil]

/-- A message of more than 36 bytes overflows at the byte after the first 36, which have filled the text. -/
theorem runCommands_b64Enc_overflows {s : State} (hr : s.err = 0#3) {bs : List Byte} (hlong : 36 < bs.length) :
    ∃ u : State, runCommands (Pseudo.b64Enc bs).expand s = .next (u.raiseFault .txtOverflow 48#8) := by
  have htake : (bs.take 36).length = 36 := List.length_take_of_le (Nat.le_of_lt hlong)
  have hdrop : bs.drop 36 ≠ [] := by simpa using hlong
  obtain ⟨htext, hphase, -⟩ := stream_whole_groups (bs := bs.take 36) (by rw [htake])
  have hlen : (streamText 0#2 0#4 (bs.take 36)).length = 48 := by rw [htext, b64url_length, htake]
  have hroom : s.blanked.HasRoomFor (bs.take 36) := (s.blanked_hasRoomFor_iff _).mpr hlen.le
  have hfull : (s.blanked.streamed (bs.take 36)).tlen.toNat = 48 :=
    (State.streamed_tlen hroom).trans ((Nat.zero_add _).trans hlen)
  have hsplit : bs.map Instr.b64Push = (bs.take 36).map .b64Push ++ (bs.drop 36).map .b64Push := by
    rw [← List.map_append, List.take_append_drop]
  refine ⟨s.blanked.streamed (bs.take 36), ?_⟩
  rw [runCommands_b64Enc s bs hr, hsplit, runCommands_append,
    runCommands_b64Push (s := s.blanked) hr s.blanked_ph_legal rfl hroom, Step.andThen_next,
    runCommands_b64Push_full (s := s.blanked.streamed (bs.take 36)) hr hphase hfull hdrop, Step.andThen_next]
  exact runCommands_discarded (State.raiseFault_faulted _ _ _) (by simp [Instr.opcode])

theorem State.blanked_appendChars_bytes (s : State) (cs : List Byte) :
    (s.blanked.appendChars cs).bytes .txt 0 cs.length = cs :=
  List.ext_getElem (by simp) fun _ _ hi =>
    (State.bytes_getElem _ _ _ _ _ _).trans (s.blanked.appendChars_memRead_at cs hi)

/-- Settles O36: the text of a message has at most 48 characters exactly when the message has at most 36 bytes, and there is
a law for either case. -/
theorem streamedTextIsTheTextOfTheMessage : Obligations.StreamedTextIsTheTextOfTheMessage := by
  refine fun s bs hr => ⟨fun hshort => ?_, fun hlong => ?_⟩
  · have hfit : (b64url bs).length ≤ 48 := by rw [b64url_length]; omega
    have htlen := s.blanked_appendChars_tlen hfit
    refine ⟨_, runCommands_b64Enc_fits hr hfit, rfl, htlen, ?_, fun a ha => ?_⟩
    · rw [htlen, State.blanked_appendChars_bytes]
    · refine (s.blanked.appendChars_memRead_txt (b64url bs) fun h => ?_).trans (s.memRead_clearText_txt a)
      rw [htlen] at ha
      exact absurd h.2 (Nat.not_lt_of_le ha)
  · obtain ⟨u, hrun⟩ := runCommands_b64Enc_overflows hr hlong
    exact ⟨_, hrun, rfl, rfl, rfl⟩

end Sys2Proof.Machine
end

section
/-! PROOFS. The commands of the address unit (R150 to R153): one byte of a record, and the conversion at its end. -/

namespace Sys2Proof.Machine

/-! ## `POS` (R27, R151) -/

theorem pos_ne_zero {p : BitVec 6} (h : 1 ≤ p.toNat) : p ≠ 0#6 := by
  rintro rfl
  cases h

theorem nextPos_of_le {p : BitVec 6} (h : p.toNat ≤ 33) : nextPos p = p + 1#6 := by
  have hsucc : (p + 1#6).toNat = p.toNat + 1 := tlen_succ (by omega)
  refine BitVec.eq_of_toNat_eq ?_
  rw [nextPos_toNat, hsucc]
  omega

theorem nextPos_of_full {p : BitVec 6} (h : 34 ≤ p.toNat) : nextPos p = 34#6 := by
  refine BitVec.eq_of_toNat_eq ?_
  rw [nextPos_toNat]
  exact Nat.min_eq_right (by omega)

/-! ## `ADR.BYTE` (R151) -/

theorem State.received_tag {s : State} (h : s.pos = 0#6) (b : Byte) :
    s.received b = { s with tag := b, pos := 1#6, done := false } := by
  rw [State.received, h]
  rfl

theorem State.received_cell {s : State} (h1 : 1 ≤ s.pos.toNat) (h33 : s.pos.toNat ≤ 33) (b : Byte) :
    s.received b = { s with ea := (s.received b).ea, pos := s.pos + 1#6, done := false } := by
  have h0 := pos_ne_zero h1
  rw [← nextPos_of_le h33]
  simp [State.received, h0]

theorem State.received_cell_memRead {s : State} (h1 : 1 ≤ s.pos.toNat) (h33 : s.pos.toNat ≤ 33) (b : Byte) :
    (s.received b).memRead .ea s.pos.toNat = b ∧
      ∀ a, a ≠ s.pos.toNat → (s.received b).memRead .ea a = s.memRead .ea a := by
  refine ⟨?_, fun a ha => ?_⟩
  · rw [State.received_memRead, if_pos ⟨rfl, h1, h33⟩]
  · rw [State.received_memRead, if_neg fun h => ha h.1]

theorem State.received_full {s : State} (h : 34 ≤ s.pos.toNat) (b : Byte) :
    s.received b = { s with pos := 34#6, done := false } := by
  have h0 := pos_ne_zero (Nat.one_le_of_lt h)
  have h33 : ¬ s.pos.toNat ≤ 33 := by omega
  rw [State.received, nextPos_of_full h]
  simp [h0, h33]

/-- Settles O41: the three ranges of `POS`, and the gate. -/
theorem adrByteReceivesOneByte : Obligations.AdrByteReceivesOneByte := by
  refine ⟨fun b => ?_, fun s b => ⟨fun hr h0 => ?_, fun hr h1 h33 => ?_, fun hr hfull => ?_,
    fun hf => exec_adrByte_faulted hf b⟩⟩
  · have hword : encode (.adrByte b) = 0x3100#16 ||| b.setWidth 16 := commandOf_eq_or 0x31#8 b
    exact ⟨hword, hword ▸ decode_adrByte b⟩
  · rw [exec_adrByte_received hr, State.received_tag h0]
  · exact ⟨s.received b, exec_adrByte_received hr b, State.received_cell h1 h33 b, State.received_cell_memRead h1 h33 b⟩
  · rw [exec_adrByte_received hr, State.received_full hfull]

/-! ## The workchain byte (R153) -/

/-- The spec's `sext` of a byte is its two's-complement reading. -/
theorem toInt_eq_sext (b : Byte) : b.toInt = if b ≤ 0x7F#8 then (b.toNat : Int) else (b.toNat : Int) - 256 := by
  have hsign : 2 * b.toNat < 2 ^ 8 ↔ b ≤ 0x7F#8 := by
    rw [BitVec.le_def, BitVec.toNat_ofNat]
    omega
  rw [BitVec.toInt_eq_toNat_cond, if_congr hsign rfl rfl]
  rfl

/-- Settles O44: the byte after the tag goes to `EA[1]` as it is. -/
theorem workchainByteKeepsItsSign : Obligations.WorkchainByteKeepsItsSign := by
  intro s b hr hpos
  have h1 : s.pos.toNat = 1 := by rw [hpos]; rfl
  obtain ⟨hbyte, -⟩ := State.received_cell_memRead (s := s) (by omega) (by omega) b
  rw [h1] at hbyte
  refine ⟨s.received b, exec_adrByte_received hr b, hbyte, ?_⟩
  rw [State.workchain, hbyte, toInt_eq_sext]

/-! ## `ADR.END` (R152) -/

/-- The state after `ADR.END` on an accepted record. -/
def State.converted (s : State) : State :=
  s.withResult (crcSeq (s.bytes .ea 0 34)) (b64url (withChecksum (s.bytes .ea 0 34)))

theorem exec_adrEnd_converted {s : State} (hr : s.err = 0#3) (hp : 34 ≤ s.pos.toNat) (ht : s.tag = tagStd) :
    exec .adrEnd s = .next s.converted :=
  exec_adrEnd_accepted hr (Nat.not_lt_of_le hp) ht

theorem State.withResult_memRead_checksum (s : State) (k : Word) (text : List Byte) :
    (s.withResult k text).memRead .ea 34 = highByte k ∧ (s.withResult k text).memRead .ea 35 = lowByte k := by
  simp [State.memRead, State.withResult, Memory.read_write]

theorem State.converted_bytes_ea (s : State) : s.converted.bytes .ea 0 36 = withChecksum (s.bytes .ea 0 34) :=
  State.bytes_with_checksum _ rfl

theorem State.converted_bytes_txt (s : State) :
    s.converted.bytes .txt 0 48 = b64url (withChecksum (s.bytes .ea 0 34)) :=
  State.withResult_bytes_txt s _ (b64url_withChecksum_length (s.bytes_length .ea 0 34))

/-- The checksum covers none of its own cells, so it is still that of the cells before it. -/
theorem State.converted_crc (s : State) : s.converted.crc = crcSeq (s.converted.bytes .ea 0 34) := by
  rw [State.converted, State.withResult_bytes_ea]
  rfl

/-- Settles O42: the two tests in their order, what a read sees of the result, and the gate. -/
theorem adrEndBuildsTheAddress : Obligations.AdrEndBuildsTheAddress := by
  refine ⟨⟨rfl, fun _ => decode_error_of_operand_ne_zero (by decide)⟩, fun s => ⟨fun hr => exec_adrEnd_short hr,
    fun hr hp => exec_adrEnd_wrongTag hr (Nat.not_lt_of_le hp), fun hr hp ht => ?_, exec_adrEnd_faulted⟩⟩
  obtain ⟨hhigh, hlow⟩ := s.withResult_memRead_checksum (crcSeq (s.bytes .ea 0 34))
    (b64url (withChecksum (s.bytes .ea 0 34)))
  refine ⟨s.converted, exec_adrEnd_converted hr hp ht, rfl, hhigh, hlow,
    fun _ h34 h35 => s.withResult_memRead_ea _ _ h34 h35, ?_⟩
  rw [State.converted_bytes_txt, State.converted_bytes_ea]

end Sys2Proof.Machine
end

section
/-! PROOFS. One conversion, whole (R154, R155, R158, R159): the bytes of a record and the `ADR.END` after them, compared with
the document's `convert`, from a state with no record open and so from the one `INIT` leaves. -/

namespace Sys2Proof.Machine

/-! ## The three cases of `convert` (R154) -/

/-- The workchain byte and the hash a record holds, where it is long enough. -/
def recordFields (raw : List Byte) : DecodedRecord := ⟨raw.getD 1 0, (raw.drop 2).take 32⟩

theorem decodeRecord_short {raw : List Byte} (h : raw.length < 34) :
    decodeRecord raw = .error (.malformedInput raw.length) := if_pos h

theorem decodeRecord_long {raw : List Byte} (h : 34 ≤ raw.length) :
    decodeRecord raw =
      if raw.headD 0 = tagStd then .ok (recordFields raw) else .error (.unsupportedTag (raw.headD 0)) := by
  match raw, h with
  | tag :: wc :: rest, h => exact if_neg (Nat.not_lt_of_le h)

theorem convert_short {raw : List Byte} (h : raw.length < 34) : convert raw = .error (.malformedInput raw.length) := by
  rw [convert, decodeRecord_short h]

theorem convert_wrongTag {raw : List Byte} (h : 34 ≤ raw.length) (ht : raw.headD 0 ≠ tagStd) :
    convert raw = .error (.unsupportedTag (raw.headD 0)) := by
  rw [convert, decodeRecord_long h, if_neg ht]

theorem convert_accepted {raw : List Byte} (h : 34 ≤ raw.length) (ht : raw.headD 0 = tagStd) :
    convert raw = .ok (addressString (recordFields raw)) := by
  rw [convert, decodeRecord_long h, if_pos ht]

/-! ## The bytes of a record and the `ADR.END` after them -/

theorem State.receivedAll_err (s : State) (raw : List Byte) : (s.receivedAll raw).err = s.err := by
  rw [State.receivedAll_frame]

theorem State.receivedAll_tlen (s : State) (raw : List Byte) : (s.receivedAll raw).tlen = s.tlen := by
  rw [State.receivedAll_frame]

theorem State.receivedAll_txt (s : State) (raw : List Byte) : (s.receivedAll raw).txt = s.txt := by
  rw [State.receivedAll_frame]

theorem runCommands_singleton (i : Instr) (s : State) : runCommands [i] s = exec i s := by
  rw [runCommands_cons_andThen]
  cases exec i s <;> rfl

theorem runCommands_record {s : State} (hr : s.err = 0#3) (raw : List Byte) :
    runCommands (raw.map .adrByte ++ [.adrEnd]) s = exec .adrEnd (s.receivedAll raw) := by
  rw [runCommands_append, runCommands_adrByte hr, Step.andThen_next, runCommands_singleton]

theorem runCommands_init (is : List Instr) (s : State) : runCommands (.init :: is) s = runCommands is s.toReset :=
  runCommands_cons_andThen .init is s

/-! ## A record received from its first byte on (R150) -/

section
variable {s : State} (hr : s.err = 0#3) (hpos : s.pos = 0#6) {raw : List Byte}
include hr hpos

/-- The laws of a record's bytes, for the state they lead to. -/
theorem State.receivedAll_record :
    (s.receivedAll raw).pos.toNat = min raw.length 34 ∧ (s.receivedAll raw).tag = raw.headD s.tag ∧
      ∀ (k : Nat) (h : k < raw.length), 1 ≤ k → k ≤ 33 → (s.receivedAll raw).memRead .ea k = raw[k] := by
  obtain ⟨t, hrun, -, hlen, htag, -, hcells, -⟩ := recordBytesLandInTheirCells s raw hr hpos
  rw [runCommands_adrByte hr] at hrun
  cases hrun
  exact ⟨hlen, htag, hcells⟩

theorem State.receivedAll_pos_long (h : 34 ≤ raw.length) : 34 ≤ (s.receivedAll raw).pos.toNat := by
  obtain ⟨hlen, -, -⟩ := State.receivedAll_record hr hpos (raw := raw)
  omega

theorem State.receivedAll_tag_long (h : 34 ≤ raw.length) : (s.receivedAll raw).tag = raw.headD 0 := by
  obtain ⟨-, htag, -⟩ := State.receivedAll_record hr hpos (raw := raw)
  rw [htag]
  cases raw with
  | nil => cases h
  | cons => rfl

/-- `EA[0..33]` is the CanonicalAddress of the record (R154). -/
theorem State.receivedAll_bytes_ea (h : 34 ≤ raw.length) :
    (s.receivedAll raw).bytes .ea 0 34 = canon (recordFields raw) := by
  obtain ⟨-, -, hcells⟩ := State.receivedAll_record hr hpos (raw := raw)
  have hlen : (canon (recordFields raw)).length = 34 := by
    simp [canon, recordFields]
    omega
  refine List.ext_getElem (by rw [State.bytes_length, hlen]) fun i hi _ => ?_
  rw [State.bytes_length] at hi
  rw [State.bytes_getElem, Nat.zero_add]
  match i with
  | 0 => rfl
  | 1 =>
    rw [hcells 1 (by omega) le_rfl (by omega)]
    exact (List.getD_eq_getElem raw 0 (by omega)).symm
  | k + 2 =>
    rw [hcells (k + 2) (by omega) (by omega) (by omega)]
    simp [canon, recordFields, Nat.add_comm 2 k]

/-! ## One conversion (R155) -/

theorem runCommands_record_short (h : raw.length < 34) : ∃ info : Byte, info.toNat = raw.length ∧
    runCommands (raw.map .adrByte ++ [.adrEnd]) s = .next ((s.receivedAll raw).raiseFault .malformedInput info) := by
  obtain ⟨hlen, -, -⟩ := State.receivedAll_record hr hpos (raw := raw)
  have hp : (s.receivedAll raw).pos.toNat < 34 := by omega
  refine ⟨(s.receivedAll raw).pos.setWidth 8, ?_, ?_⟩
  · rw [BitVec.toNat_setWidth_of_le (by decide), hlen]
    omega
  · rw [runCommands_record hr, exec_adrEnd_short ((s.receivedAll_err raw).trans hr) hp]

theorem runCommands_record_wrongTag (h : 34 ≤ raw.length) (ht : raw.headD 0 ≠ tagStd) :
    runCommands (raw.map .adrByte ++ [.adrEnd]) s =
      .next ((s.receivedAll raw).raiseFault .unsupportedTag (raw.headD 0)) := by
  have hp := State.receivedAll_pos_long hr hpos h
  have htag := State.receivedAll_tag_long hr hpos h
  rw [← htag] at ht ⊢
  rw [runCommands_record hr, exec_adrEnd_wrongTag ((s.receivedAll_err raw).trans hr) (Nat.not_lt_of_le hp) ht]

theorem runCommands_record_accepted (h : 34 ≤ raw.length) (ht : raw.headD 0 = tagStd) :
    runCommands (raw.map .adrByte ++ [.adrEnd]) s = .next (s.receivedAll raw).converted := by
  have htag := (State.receivedAll_tag_long hr hpos h).trans ht
  rw [runCommands_record hr,
    exec_adrEnd_converted ((s.receivedAll_err raw).trans hr) (State.receivedAll_pos_long hr hpos h) htag]

/-- An accepted record leaves its AddressString and its EncodedAddress, with the checksum of the latter. -/
theorem State.receivedAll_converted (h : 34 ≤ raw.length) :
    (s.receivedAll raw).converted.err = 0#3 ∧ (s.receivedAll raw).converted.done = true ∧
      (s.receivedAll raw).converted.tlen = 48#6 ∧
      (s.receivedAll raw).converted.bytes .txt 0 48 = addressString (recordFields raw) ∧
      (s.receivedAll raw).converted.bytes .ea 0 36 = encodedAddress (recordFields raw) ∧
      (s.receivedAll raw).converted.crc = crcSeq ((s.receivedAll raw).converted.bytes .ea 0 34) := by
  refine ⟨(s.receivedAll_err raw).trans hr, rfl, rfl, ?_, ?_, State.converted_crc _⟩
  · rw [State.converted_bytes_txt, State.receivedAll_bytes_ea hr hpos h]
    rfl
  · rw [State.converted_bytes_ea, State.receivedAll_bytes_ea hr hpos h]
    rfl

/-- Exactly one of the three cases of R155 holds, for the document's `convert` and for the commands alike. -/
theorem conversion_cases :
    (raw.length < 34 ∧ convert raw = .error (.malformedInput raw.length) ∧ ∃ info : Byte, info.toNat = raw.length ∧
      runCommands (raw.map .adrByte ++ [.adrEnd]) s =
        .next ((s.receivedAll raw).raiseFault .malformedInput info)) ∨
    (convert raw = .error (.unsupportedTag (raw.headD 0)) ∧
      runCommands (raw.map .adrByte ++ [.adrEnd]) s =
        .next ((s.receivedAll raw).raiseFault .unsupportedTag (raw.headD 0))) ∨
    (34 ≤ raw.length ∧ convert raw = .ok (addressString (recordFields raw)) ∧
      runCommands (raw.map .adrByte ++ [.adrEnd]) s = .next (s.receivedAll raw).converted) := by
  by_cases h : raw.length < 34
  · exact .inl ⟨h, convert_short h, runCommands_record_short hr hpos h⟩
  · have hlong := Nat.le_of_not_lt h
    by_cases ht : raw.headD 0 = tagStd
    · exact .inr (.inr ⟨hlong, convert_accepted hlong ht, runCommands_record_accepted hr hpos hlong ht⟩)
    · exact .inr (.inl ⟨convert_wrongTag hlong ht, runCommands_record_wrongTag hr hpos hlong ht⟩)

end

/-- Settles O45: the three cases, from the state `INIT` leaves and from one with no record open. -/
theorem conversionComputesConvert : Obligations.ConversionComputesConvert := by
  refine ⟨fun s raw => ?_, fun s raw hr hpos => ?_⟩
  · rw [List.cons_append, runCommands_init]
    have htlen : (s.toReset.receivedAll raw).tlen = 0#6 := s.toReset.receivedAll_tlen raw
    obtain ⟨hlen, hconv, info, hinfo, hrun⟩ | ⟨hconv, hrun⟩ | ⟨hlen, hconv, hrun⟩ :=
      conversion_cases (s := s.toReset) rfl rfl (raw := raw)
    · rw [hconv]
      exact ⟨_, hrun, rfl, Nat.le_of_lt_succ hlen, rfl, hinfo, rfl, htlen⟩
    · rw [hconv]
      exact ⟨_, hrun, rfl, rfl, rfl, htlen⟩
    · rw [hconv]
      exact ⟨_, hrun, State.receivedAll_converted (s := s.toReset) rfl rfl hlen⟩
  · have htlen := s.receivedAll_tlen raw
    have htxt := s.receivedAll_txt raw
    obtain ⟨hlen, hconv, info, hinfo, hrun⟩ | ⟨hconv, hrun⟩ | ⟨hlen, hconv, hrun⟩ :=
      conversion_cases hr hpos (raw := raw)
    · rw [hconv]
      exact ⟨_, hrun, rfl, Nat.le_of_lt_succ hlen, rfl, hinfo, rfl, htlen, htxt⟩
    · rw [hconv]
      exact ⟨_, hrun, rfl, rfl, rfl, htlen, htxt⟩
    · rw [hconv]
      exact ⟨_, hrun, State.receivedAll_converted hr hpos hlen⟩

/-! ## Nothing but the record is seen (R158) -/

/-- A sequence of commands runs alike whatever the events still to come after it, and passes them on. -/
theorem runCommands_withInput (evs : List HostEvent) (is : List Instr) (s : State) :
    runCommands is (s.withInput evs) = Step.withInput evs (runCommands is s) := by
  induction is generalizing s with
  | nil => rfl
  | cons i is ih =>
    rw [runCommands_cons_andThen, runCommands_cons_andThen, exec_withInput]
    cases exec i s with
    | next t => exact ih t
    | fault e => rfl
    | refused x => rfl

theorem runCommands_completes {s : State} (hp : s.ph ≠ 3#2) (is : List Instr) : ∃ t, runCommands is s = .next t := by
  obtain ⟨t, hrun, -⟩ := everyRunCompletes is.length { s with input := commands is ++ s.input } hp
  exact ⟨t, hrun⟩

/-- A sequence that begins with `INIT` gives one state, whatever the state before it. -/
theorem runCommands_init_const (is : List Instr) :
    ∃ t : State, ∀ s : State, runCommands (.init :: is) s = .next (t.withInput s.input) := by
  obtain ⟨t, hrun⟩ := runCommands_completes (s := State.reset) (by decide) is
  refine ⟨t, fun s => ?_⟩
  have hreset : s.toReset = State.reset.withInput s.input := rfl
  rw [runCommands_init, hreset, runCommands_withInput, hrun, Step.withInput_next]

/-- Settles O46: a conversion begins with `INIT`. -/
theorem conversionDependsOnTheRecordAlone : Obligations.ConversionDependsOnTheRecordAlone := by
  intro raw s s'
  obtain ⟨t, hrun⟩ := runCommands_init_const (raw.map .adrByte ++ [.adrEnd, .rdr 0])
  exact ⟨t, hrun s, hrun s'⟩

/-! ## The ignored tail and the leading zero byte (R151, R159) -/

theorem State.receivedAll_append (s : State) (raw tail : List Byte) :
    s.receivedAll (raw ++ tail) = (s.receivedAll raw).receivedAll tail := List.foldl_append

/-- From the 35th byte on nothing is left to change: `POS` is saturated and `DONE` is already clear. -/
theorem State.receivedAll_of_full {s : State} (hp : s.pos = 34#6) (hd : s.done = false) (tail : List Byte) :
    s.receivedAll tail = s := by
  induction tail with
  | nil => rfl
  | cons b tail ih =>
    have hsame : s.received b = s := by
      rw [State.received_full (by rw [hp]; decide), ← hp, ← hd]
    rw [State.receivedAll_cons, hsame, ih]

/-- A record of 34 bytes or more is received as the record without its tail is (R159). -/
theorem State.toReset_receivedAll_append (s : State) {raw : List Byte} (h : 34 ≤ raw.length) (tail : List Byte) :
    s.toReset.receivedAll (raw ++ tail) = s.toReset.receivedAll raw := by
  obtain ⟨hpos, -, -⟩ := State.receivedAll_record (s := s.toReset) rfl rfl (raw := raw)
  have hfull : (s.toReset.receivedAll raw).pos = 34#6 :=
    BitVec.eq_of_toNat_eq (hpos.trans (Nat.min_eq_right h))
  rw [State.receivedAll_append, State.receivedAll_of_full hfull (State.receivedAll_done rfl raw)]

/-- The bytes of a record enter a conversion through the state they are received into, and in no other way. -/
theorem runCommands_convert (s : State) (raw : List Byte) :
    runCommands (Pseudo.convert raw).expand s = runCommands [.adrEnd, .rdr 0] (s.toReset.receivedAll raw) := by
  rw [Pseudo.expand, List.cons_append, runCommands_init, runCommands_append,
    runCommands_adrByte (s := s.toReset) rfl, Step.andThen_next]

/-- Settles O47: the tail leaves the state as the first 34 bytes left it, and the leading zero is a tag that is not the
standard one. -/
theorem tailIsIgnoredAndLeadingZeroIsTheTag : Obligations.TailIsIgnoredAndLeadingZeroIsTheTag := by
  refine ⟨fun s raw tail h => ?_, fun s rest h => ?_⟩
  · rw [runCommands_convert, runCommands_convert, s.toReset_receivedAll_append h]
  · have hrun := runCommands_record_wrongTag (s := s.toReset) rfl rfl (raw := 0x00#8 :: rest)
      (Nat.succ_le_succ h) (by decide : (0x00#8 : Byte) ≠ tagStd)
    rw [List.cons_append, runCommands_init]
    exact ⟨_, hrun, rfl, rfl⟩

end Sys2Proof.Machine
end

section
/-! PROOFS. Faults (R170 to R181): what fault entry changes, which command raises which fault, the way out of the fault
state, the two fault registers in the document's words, and the two outputs. -/

namespace Sys2Proof.Machine

/-! ## The way out of the fault state (R176, R178) -/

/-- The next event is one of the two that leave the fault state, the platform's reset or the word of `INIT`. -/
def State.NextLeavesFault (s : State) : Prop :=
  ∃ rest, s.input = .reset :: rest ∨ s.input = .command 0x0100#16 :: rest

/-- Both ways out put the whole engine in the reset state, from any state. -/
theorem step_of_nextLeavesFault {s : State} (h : s.NextLeavesFault) :
    step s = .next { State.reset with input := s.input.tail } := by
  obtain ⟨rest, hin | hin⟩ := h <;> rw [hin]
  · exact step_of_reset hin
  · exact step_of_decoded hin (i := .init) rfl

/-- Any other event, and no event, leaves a faulted engine as it is but for `RESP`. -/
theorem step_of_stays_faulted {s : State} (hf : s.err ≠ 0#3) (h : ¬ s.NextLeavesFault) :
    ∃ r, step s = .next { s with resp := r, input := s.input.tail } := by
  obtain ⟨hin, hstep⟩ | ⟨rest, hin, -⟩ | ⟨w, rest, i, hin, hdecode, hstep⟩ | ⟨w, rest, e, hin, -, hstep⟩ :=
    step_cases s
  · refine ⟨s.resp, hstep.trans ?_⟩
    rw [hin, List.tail_nil, ← hin]
  · exact absurd ⟨rest, .inl hin⟩ h
  · have hi : i ≠ .init := by
      rintro rfl
      exact h ⟨rest, .inr (word_of_decode_init hdecode ▸ hin)⟩
    obtain ⟨r, hexec, -⟩ := faultStateChangesOnlyTheResponse i { s with input := rest } hf hi
    rw [hin]
    exact ⟨r, hstep.trans hexec⟩
  · rw [hin]
    exact ⟨s.resp, hstep.trans (State.illegalCommand_faulted (s := { s with input := rest }) hf _)⟩

/-- Settles O24: the step is one of the two above, and the second keeps the fault. -/
theorem onlyInitAndResetLeaveTheFaultState : Obligations.OnlyInitAndResetLeaveTheFaultState := by
  intro s hf
  by_cases hout : s.NextLeavesFault
  · have hstep := step_of_nextLeavesFault hout
    simp only [hstep, Host.Outcome.next.injEq]
    refine ⟨iff_of_true ⟨_, rfl, rfl⟩ hout, fun t ht _ => ht.symm, ?_⟩
    rintro t rfl ht
    exact absurd rfl ht
  · obtain ⟨r, hstep⟩ := step_of_stays_faulted hf hout
    simp only [hstep, Host.Outcome.next.injEq]
    refine ⟨iff_of_false ?_ hout, ?_, ?_⟩
    · rintro ⟨t, rfl, ht⟩
      exact hf ht
    · rintro t rfl ht
      exact absurd ht hf
    · rintro t rfl _
      rfl

/-! ## Fault entry (R175, R180) -/

/-- A fault is new only by an effect that is fault entry. -/
theorem Effect.of_new_fault {s t : State} {i : Instr} (hr : s.err = 0#3) (hf : t.err ≠ 0#3) (h : Effect s i t) :
    ∃ c info, t = s.raiseFault c info := by
  cases h with
  | illegal | overflowed | tooShort | wrongTag => exact ⟨_, _, rfl⟩
  | reset => exact absurd rfl hf
  | _ => exact absurd hr hf

/-- Settles O21: fault entry writes the three registers. -/
theorem faultEntryChangesNothingElse : Obligations.FaultEntryChangesNothingElse := by
  intro i s t hr h hf
  obtain ⟨c, info, rfl⟩ := (effect_of_exec h).of_new_fault hr hf
  rfl

/-! ## Causes and contexts (Table X1) -/

/-- Writing characters latches nothing, so a command that appends faults by its overflow test alone (R134, R174). -/
theorem State.overflows_of_appending_faults {s t : State} {n : Nat} {work : State → Except Fault State}
    (hwork : ∀ s t : State, s.tlen.toNat ≤ 48 → work s = .ok t → Appended s t) (hr : s.err = 0#3)
    (h : s.appending n work = .next t) (hf : t.err ≠ 0#3) : 48 < s.tlen.toNat + n := by
  obtain ⟨hfaulted, -⟩ | ⟨-, ho, -⟩ | ⟨-, hfit, hok⟩ := State.appending_next_iff.mp h
  · exact absurd hr hfaulted
  · exact ho
  · obtain ⟨cs, ph, acc, -, -, -, rfl⟩ := hwork { s with done := false } t (Nat.le_of_add_right_le hfit) hok
    exact absurd hr hf

theorem b64Push_fault_cause {s t : State} {b : Byte} (hr : s.err = 0#3) (h : exec (.b64Push b) s = .next t)
    (hf : t.err ≠ 0#3) : 48 < s.tlen.toNat + (if s.ph = 2#2 then 2 else 1) := by
  have ho := State.overflows_of_appending_faults (fun _ _ _ => appended_of_b64Push) hr h hf
  have hphase : s.ph.toNat = 2 ↔ s.ph = 2#2 := BitVec.toNat_inj (y := 2#2)
  simpa only [nchars_one, hphase] using ho

theorem b64End_fault_cause {s t : State} (hr : s.err = 0#3) (h : exec .b64End s = .next t) (hf : t.err ≠ 0#3) :
    48 < s.tlen.toNat + (if s.ph = 0#2 then 0 else 1) :=
  State.overflows_of_appending_faults (fun _ _ => appended_of_b64Flush) hr h hf

theorem crcEmit_fault_cause {s t : State} (hr : s.err = 0#3) (hp : s.ph ≠ 3#2) (h : exec .crcEmit s = .next t)
    (hf : t.err ≠ 0#3) : 48 < s.tlen.toNat + (if s.ph = 0#2 then 2 else 3) := by
  rw [← nchars_two hp]
  exact State.overflows_of_appending_faults (fun _ _ _ => appended_of_b64PushAll) hr h hf

theorem illegal_fault_context {s : State} {i : Instr} {op : Byte} (hr : s.err = 0#3) (hw : i.wellFormed = false)
    (h : exec i s = .next (s.raiseFault .illegalCommand op)) : op = i.opcode := by
  rw [exec_illegal_running hw hr] at h
  injection h with h
  exact (congrArg State.errInfo h).symm

/-- Settles O22: the four effects that are fault entry, each with its cause and its context. -/
theorem faultCausesAndContexts : Obligations.FaultCausesAndContexts := by
  intro i s t hr hp h hf
  cases effect_of_exec h with
  | tooShort _ hpos => exact .inl ⟨rfl, rfl, hpos, BitVec.toNat_setWidth_of_le (by decide)⟩
  | wrongTag _ hpos ht => exact .inr (.inl ⟨rfl, rfl, hpos, ht, rfl⟩)
  | illegal _ hw op => exact .inr (.inr (.inl ⟨rfl, hw, illegal_fault_context hr hw h⟩))
  | overflowed _ hi _ =>
    refine .inr (.inr (.inr ⟨rfl, BitVec.toNat_setWidth_of_le (by decide), ?_⟩))
    obtain ⟨b, rfl⟩ | rfl | rfl := hi
    · exact .inl ⟨⟨b, rfl⟩, b64Push_fault_cause hr h hf⟩
    · exact .inr (.inl ⟨rfl, b64End_fault_cause hr h hf⟩)
    · exact .inr (.inr ⟨rfl, crcEmit_fault_cause hr hp h hf⟩)
  | reset => exact absurd rfl hf
  | _ => exact absurd hr hf

/-! ## The document's words (R181) -/

/-- The fault read off `ERR` is the one whose code stands there (R30). -/
theorem State.latchedFault_eq_some_iff {s : State} {c : FaultCode} : s.latchedFault = some c ↔ s.err = c.code := by
  refine ⟨fun h => ?_, fun h => ?_⟩
  · unfold State.latchedFault at h
    split at h <;> cases h <;> exact BitVec.eq_of_toNat_eq ‹_›
  · have hlatched : s.latchedFault = (s.raiseFault c 0x00#8).latchedFault := by
      simp only [State.latchedFault, State.raiseFault_err, h]
    rw [hlatched, State.latchedFault_raiseFault]

theorem State.documentError_malformed {s : State} (h : s.err = 1#3) :
    s.documentError = some (.malformedInput s.errInfo.toNat) := by
  have hlatched : s.latchedFault = some .malformedInput := State.latchedFault_eq_some_iff.mpr h
  rw [State.documentError, hlatched]

theorem State.documentError_wrongTag {s : State} (h : s.err = 2#3) :
    s.documentError = some (.unsupportedTag s.errInfo) := by
  have hlatched : s.latchedFault = some .unsupportedTag := State.latchedFault_eq_some_iff.mpr h
  rw [State.documentError, hlatched]

theorem State.documentError_none {s : State} (h1 : s.err ≠ 1#3) (h2 : s.err ≠ 2#3) : s.documentError = none := by
  unfold State.documentError
  split
  case h_1 hlatched => exact absurd (State.latchedFault_eq_some_iff.mp hlatched) h1
  case h_2 hlatched => exact absurd (State.latchedFault_eq_some_iff.mp hlatched) h2
  all_goals rfl

theorem State.hostMisused_iff {s : State} : s.hostMisused = true ↔ s.err = 3#3 ∨ s.err = 4#3 := by
  have h3 : s.latchedFault = some .illegalCommand ↔ s.err = 3#3 := State.latchedFault_eq_some_iff
  have h4 : s.latchedFault = some .txtOverflow ↔ s.err = 4#3 := State.latchedFault_eq_some_iff
  rw [← h3, ← h4, State.hostMisused]
  split <;> simp_all

theorem State.hostMisused_running {s : State} (h : s.err = 0#3) : s.hostMisused = false := by
  rw [Bool.eq_false_iff, ne_eq, State.hostMisused_iff, h]
  decide

/-- The two tests of `ADR.END` are the only source of the document's errors. -/
theorem Effect.documentError_source {s t : State} {i : Instr} (hs : s.documentError = none)
    (ht : t.documentError ≠ none) (h : Effect s i t) : i = .adrEnd := by
  cases h with
  | tooShort | wrongTag | converted => rfl
  | reset => exact absurd (State.documentError_running rfl) ht
  | illegal | overflowed => exact absurd (State.documentError_raiseFault _ _ _) ht
  | _ => exact absurd hs ht

/-- Settles O48: the codes, the one command that gives the document's errors, and the three cases of a conversion. -/
theorem faultsSpeakTheDocumentsWords : Obligations.FaultsSpeakTheDocumentsWords := by
  refine ⟨fun s => ⟨State.documentError_malformed, State.documentError_wrongTag,
      State.documentError_none, State.hostMisused_iff⟩,
    fun _ _ _ hs h ht => (effect_of_exec h).documentError_source hs ht, fun s raw => ?_⟩
  rw [List.cons_append, runCommands_init]
  obtain ⟨-, hconv, info, hinfo, hrun⟩ | ⟨hconv, hrun⟩ | ⟨hlong, hconv, hrun⟩ :=
    conversion_cases (s := s.toReset) rfl rfl (raw := raw)
  · rw [hconv, ← hinfo]
    exact ⟨_, hrun, State.hostMisused_raiseFault _ _ _, State.documentError_raiseFault _ _ _⟩
  · rw [hconv]
    exact ⟨_, hrun, State.hostMisused_raiseFault _ _ _, State.documentError_raiseFault _ _ _⟩
  · rw [hconv]
    obtain ⟨hr, -⟩ := State.receivedAll_converted (s := s.toReset) rfl rfl hlong
    exact ⟨_, hrun, State.hostMisused_running hr, State.documentError_running hr⟩

/-! ## The two outputs (R186) -/

theorem State.faultOut_iff (s : State) : s.faultOut = true ↔ s.err ≠ 0#3 := bne_iff_ne

/-- Settles O20: the outputs are the two low bits of the status word, by its layout. -/
theorem outputsAreDoneAndFault : Obligations.OutputsAreDoneAndFault := by
  refine ⟨⟨rfl, rfl⟩, fun s => ⟨rfl, s.faultOut_iff, s.csr .status, exec_rdr_of_statusNumber rfl s, ?_⟩⟩
  obtain ⟨hdone, hfault, -⟩ := s.csr_status_fields
  exact ⟨hdone, Bool.eq_iff_iff.mpr (hfault.trans s.faultOut_iff.symm)⟩

end Sys2Proof.Machine
end

section
/-! PROOFS. The texts of the pieces of a long message (R206), by the streaming form of the text (R133, R138). -/

namespace Sys2Proof.Machine

/-- After whole 3-byte groups nothing waits, so what follows is encoded as from the start. -/
theorem b64url_append_of_groups {bs : List Byte} (h : bs.length % 3 = 0) (ds : List Byte) :
    b64url (bs ++ ds) = b64url bs ++ b64url ds := by
  obtain ⟨htext, hph, hacc⟩ := stream_whole_groups h
  rw [← streamText_b64url (bs ++ ds), streamText_append, streamPh_append, streamAcc_append, htext, hph, hacc,
    List.append_assoc, streamText_b64url ds]

/-- Settles O40, by induction on the pieces before the last. -/
theorem piecewiseTextsJoin : Obligations.PiecewiseTextsJoin := by
  intro pieces last hgroups
  induction pieces with
  | nil => rfl
  | cons p ps ih =>
    obtain ⟨hp, hps⟩ := List.forall_mem_cons.mp hgroups
    rw [List.flatten_cons, List.append_assoc, b64url_append_of_groups hp, ih hps, List.map_cons, List.flatten_cons,
      List.append_assoc]

end Sys2Proof.Machine
end
